-- ==== Sys2Proof/Word.lean ====
section
/-! DEFINITION. The widths of the block (rules R6, R7): every value is an unsigned bit vector. -/

namespace Sys2Proof

/-- One wire sample: a value in 0, 1 (R7). -/
abbrev Bit := BitVec 1

/-- "a 4-bit group, the natural width of one I/O port in this system" (R7). -/
abbrev Nibble := BitVec 4

/-- A byte of the persistent blob (R56). -/
abbrev Byte := BitVec 8

/-- The width of a cell, of `nv.data_register`, of `plate` and of `grid` (R6). -/
abbrev Word := BitVec 16

/-- The width of the auxiliary accumulator (R6). -/
abbrev Frame := BitVec 32

end Sys2Proof
end

