-- ==== Sys2Proof/Config.lean ====
section
/-! DEFINITION. The implementation parameters of rule R6, their defaults, and what makes them admissible. -/

namespace Sys2Proof

/-- The eight named ports of R51. -/
inductive Port where
  | addr | mode | plate0 | plate1 | plate2 | plgr | grid | sbus
deriving DecidableEq, Repr

/-- `PORT_MAP`: the 4-bit selector of each named port (R6, R73). -/
structure PortMap where
  addr   : Nibble
  mode   : Nibble
  plate0 : Nibble
  plate1 : Nibble
  plate2 : Nibble
  plgr   : Nibble
  grid   : Nibble
  sbus   : Nibble
deriving DecidableEq, Repr

/-- The selector that the map gives a port. -/
def PortMap.selector (m : PortMap) : Port → Nibble
  | .addr => m.addr
  | .mode => m.mode
  | .plate0 => m.plate0
  | .plate1 => m.plate1
  | .plate2 => m.plate2
  | .plgr => m.plgr
  | .grid => m.grid
  | .sbus => m.sbus

/-- The eight selectors in the order of R73's table. -/
def PortMap.selectors (m : PortMap) : List Nibble :=
  [m.addr, m.mode, m.plate0, m.plate1, m.plate2, m.plgr, m.grid, m.sbus]

/-- "`PORT_MAP` assigns eight distinct selectors to the eight named ports" (R73). -/
def PortMap.wf (m : PortMap) : Bool := decide m.selectors.Nodup

/-- `STORE_BYTE_ORDER`, which R6 leaves OPEN: no field of `Config` holds it, a claim about blob bytes takes it as an
argument (R56, log 12). -/
inductive ByteOrder where
  | little | big
deriving DecidableEq, Repr

/-- `RESET_STATE`: the power-on value of every volatile element but the cells (R6, R39). -/
structure ResetValues where
  nvMode            : Nibble
  nvAddress         : Nibble
  nvDataRegister    : Word
  nvClockPrevious   : Bit
  nvPendingTransfer : Bool
  auxClockPrevious  : Bit
  auxStrobed        : Bool
  auxAccumulator    : Frame
  plate             : Word
  grid              : Word
deriving DecidableEq, Repr

/-- The parameters of R6. State holds one (log 28), so a statement about every state is a statement about every
setting of them. -/
structure Config where
  ports             : PortMap
  sbClkBit          : Fin 4
  sbDataBit         : Fin 4
  sbStrobeBit       : Fin 4
  nvDoutBit         : Fin 4
  nvStepOnModeWrite : Bool
  resetValues       : ResetValues
deriving DecidableEq, Repr

/-- The default `PORT_MAP` of R6. DESIGN CHOICE (the spec's D2, log 2), unsafe. -/
def PortMap.defaults : PortMap :=
  { addr := 0, mode := 1, plate0 := 2, plate1 := 3, plate2 := 4, plgr := 5, grid := 6, sbus := 7 }

/-- The default `RESET_STATE` of R39: all zero. DESIGN CHOICE (the spec's D10, log 10), unsafe. -/
def ResetValues.defaults : ResetValues :=
  { nvMode := 0, nvAddress := 0, nvDataRegister := 0, nvClockPrevious := 0, nvPendingTransfer := false
    auxClockPrevious := 0, auxStrobed := false, auxAccumulator := 0, plate := 0, grid := 0 }

/-- The defaults of R6. DESIGN CHOICE (the spec's D2, D3, D4, D7, D10; log 2, 3, 4, 7, 10), unsafe. -/
def Config.defaults : Config :=
  { ports := PortMap.defaults
    sbClkBit := 0
    sbDataBit := 1
    sbStrobeBit := 2
    nvDoutBit := 3
    nvStepOnModeWrite := true
    resetValues := ResetValues.defaults }

/-- The three bus bits are "pairwise distinct values in 0..3" (R6). -/
def Config.busBitsWf (c : Config) : Bool := decide [c.sbClkBit, c.sbDataBit, c.sbStrobeBit].Nodup

/-- Admissible parameters: an injective port map (R73) and distinct bus bits (R6). -/
def Config.wf (c : Config) : Bool := c.ports.wf && c.busBitsWf

end Sys2Proof
end

