-- ==== Sys2Proof/Machine/State.lean ====
section
/-! DEFINITION. The state of the block (rules R20 to R32), the inputs and outputs of a step (R37, R38), the reasons a
step can stop, and the state after reset (R39). -/

namespace Sys2Proof.Machine

open Sys2Proof

/-- The cell space (R50 (2), R26): (address, cell) pairs in ONE canonical form, addresses strictly rising below 16, no
listed cell equal to what an unlisted one reads as, zero (log 32). `Memory.wf` in Machine/Ops.lean says so. The unit is
the whole 16-bit cell, the smallest the spec addresses (R53, R58). -/
abbrev Memory := List (Nat × Word)

/-- Sixteen 16-bit words handed over whole: what a save writes and what a torn store may hold (R37, R38). -/
abbrev Image := Vector Word 16

/-- The NVRAM controller's registers (R21 to R25). -/
structure Nvram where
  /-- The mode latch; every 4-bit value is legal (R21). -/
  mode            : Nibble
  /-- The address latch (R22). -/
  address         : Nibble
  /-- The bit-serial shift register (R23). -/
  dataRegister    : Word
  /-- The controller's copy of the last clock sample it accepted (R24). -/
  clockPrevious   : Bit
  /-- A rising edge not yet consumed by a bit movement (R25). -/
  pendingTransfer : Bool
deriving DecidableEq, Repr

/-- The auxiliary receiver's registers (R28 to R30). -/
structure AuxReceiver where
  /-- The receiver's copy of the last clock sample (R28). -/
  clockPrevious : Bit
  /-- A level copy of the strobe line (R29). -/
  strobed       : Bool
  /-- The shift accumulator (R30). -/
  accumulator   : Frame
deriving DecidableEq, Repr

/-- How a save ends, drawn by the environment (R38 (b), R182). -/
inductive SaveOutcome where
  /-- The store equals the cells. -/
  | ok
  /-- The store is absent or holds any sixteen words, and the failure is logged. -/
  | fail (image : Option Image)
deriving DecidableEq, Repr

/-- What the environment supplies for the request being run (R38). The MODEL's own, not state of the block (log 25,
31). -/
structure Env where
  /-- The sampled input nibble of a port read (R38 (a)). -/
  extIn       : Nibble
  /-- The outcome of a save (R38 (b)). -/
  saveOutcome : SaveOutcome
  /-- The data argument of a mode row run by itself: a bit, or NODATA as `none` (R80). No step supplies a bit here; a
  P_SBUS write hands its bit to the arm directly (R103, R109). -/
  nvData      : Option Bit
deriving DecidableEq, Repr

/-- What the agents of R8 ask of the block, one at a time. -/
inductive Request where
  /-- A port write, a port read or a drain as its transaction word (R71), with the environment's draws (R38). -/
  | transaction (word : BitVec 10) (extIn : Nibble) (saveOutcome : SaveOutcome)
  /-- The environment's power cycle (R211); `loadFails` says that a store there is could not be read whole (R180,
  log 11). -/
  | powerOn (loadFails : Bool)
  /-- NVSTEP by itself with NOCLK and NODATA, since "the wire is sampled only when P_SBUS is written" (R109): the only
  request whose instruction is the content of the mode latch. No agent issues it (log 30). -/
  | nvstep (saveOutcome : SaveOutcome)
deriving DecidableEq, Repr

/-- The output events of R37. -/
inductive Event where
  /-- The nibble returned to the host by a port read. -/
  | readResponse (n : Nibble)
  /-- The composer's notification: the pair and the fixed extent (R167). -/
  | displayNotify (plate grid : Word) (columns rows : Nat)
  /-- The completed frame of a drain (R151). -/
  | auxFrame (v : Frame)
  /-- The cell array handed to the store by a save (R181). -/
  | storeFlush (image : Image)
  /-- The report of a failed load or save (R191). -/
  | storageIOFailure
deriving DecidableEq, Repr

/-- The twelve elements of R20, and the model's own fields: the parameters, the requests to come, the draws of the
request being run and the events so far. -/
structure State where
  /-- The parameters of R6; no step changes them (log 28). -/
  cfg      : Config
  /-- R21 to R25. -/
  nv       : Nvram
  /-- The working copy of the sixteen cells (R26). -/
  cells    : Memory
  /-- The non-volatile backing image: absent, or sixteen cells (R27). -/
  store    : Option Memory
  /-- R28 to R30. -/
  aux      : AuxReceiver
  /-- R31. -/
  plate    : Word
  /-- R32. -/
  grid     : Word
  /-- What is still to come, oldest first (R8, R63; log 16). -/
  requests : List Request
  /-- The draws of the request being run (R38; log 25). -/
  env      : Env
  /-- Every event emitted so far, oldest first (R37; log 29). -/
  outputs  : List Event
deriving DecidableEq, Repr

/-- No operation of the block faults: "There are no fatal error conditions in this core" (R190, R197). Nothing raises
one, so the type has no constructor (log 17); that is safe only as far as R190 is right. -/
inductive Fault : Type where
deriving DecidableEq, Repr

/-- Why the model gives an operation no successor. -/
inductive Refusal where
  /-- An instruction that has no meaning in this model, by its mnemonic: raised by an arm of `exec`. Safe. -/
  | notModelled (mnemonic : String)
  /-- The reserved kind 3: "The decoder returns invalid; the model refuses it" (R107). Raised by INVALID. Safe: the
  hardware has no such input. -/
  | reservedKind
deriving DecidableEq, Repr

/-- The registers of R39 as `RESET_STATE` gives them. -/
def Nvram.ofReset (r : ResetValues) : Nvram :=
  { mode := r.nvMode, address := r.nvAddress, dataRegister := r.nvDataRegister
    clockPrevious := r.nvClockPrevious, pendingTransfer := r.nvPendingTransfer }

/-- The receiver's registers of R39 as `RESET_STATE` gives them. -/
def AuxReceiver.ofReset (r : ResetValues) : AuxReceiver :=
  { clockPrevious := r.auxClockPrevious, strobed := r.auxStrobed, accumulator := r.auxAccumulator }

/-- The machine after power-on with no store and the default parameters: R39's table, the spec's D10 (log 10, 27). The
draws are DESIGN CHOICE (log 25, 31); nothing is to come and nothing has been emitted (R211). -/
def State.reset : State :=
  { cfg := Config.defaults
    nv := { mode := 0, address := 0, dataRegister := 0, clockPrevious := 0, pendingTransfer := false }
    cells := []
    store := none
    aux := { clockPrevious := 0, strobed := false, accumulator := 0 }
    plate := 0
    grid := 0
    requests := []
    env := { extIn := 0, saveOutcome := .ok, nvData := none }
    outputs := [] }

end Sys2Proof.Machine
end

