-- ==== Sys2Proof/Machine/Ops.lean ====
section
/-! DEFINITION. The operations the meanings share: memory (R52, R53), register updates, output events (R37), the
persistent store's save and load (R180, R181), and power-on (R211). The block has no exception (R190, R197), so there
is no operation that takes one and none that returns from one (log 17). -/

namespace Sys2Proof.Machine

open Sys2Proof

/-! ## The cell space -/

/-- The canonical form: addresses strictly rising and below 16, no listed cell zero. -/
def Memory.wf (m : Memory) : Bool :=
  decide (m.Pairwise (fun p q => p.1 < q.1)) && m.all (fun p => decide (p.1 < 16) && p.2 != 0)

/-- What an unlisted cell reads as: "zero-filled if absent" (R26, R180). -/
def Memory.unlisted : Word := 0

/-- The cell at an address. -/
def Memory.read : Memory → Nat → Word
  | [], _ => Memory.unlisted
  | (k, v) :: rest, a => if k = a then v else Memory.read rest a

/-- Put an entry before the first one of a higher address. -/
def Memory.insert (a : Nat) (v : Word) : Memory → Memory
  | [] => [(a, v)]
  | (k, w) :: rest => if a < k then (a, v) :: (k, w) :: rest else (k, w) :: Memory.insert a v rest

/-- Take out the entry of an address. -/
def Memory.remove (a : Nat) (m : Memory) : Memory := m.filter (fun p => p.1 != a)

/-- Write a cell; writing what an unlisted cell reads as takes the entry out, so the form stays canonical. -/
def Memory.write (m : Memory) (a : Nat) (v : Word) : Memory :=
  if v = Memory.unlisted then m.remove a else (m.remove a).insert a v

/-- The sixteen cells in ascending order (R56, R181). -/
def Memory.image (m : Memory) : Image := Vector.ofFn (fun i : Fin 16 => m.read i.val)

/-- The cells that hold a given image. -/
def Memory.ofImage (img : Image) : Memory :=
  (List.finRange 16).foldl (fun m i => m.write i.val (img.get i)) []

/-! ## Updates of one element -/

def State.setNv (s : State) (n : Nvram) : State := { s with nv := n }

def State.setCells (s : State) (m : Memory) : State := { s with cells := m }

def State.setStore (s : State) (m : Option Memory) : State := { s with store := m }

def State.setAux (s : State) (a : AuxReceiver) : State := { s with aux := a }

def State.setPlate (s : State) (p : Word) : State := { s with plate := p }

def State.setGrid (s : State) (g : Word) : State := { s with grid := g }

def State.setRequests (s : State) (rs : List Request) : State := { s with requests := rs }

def State.setEnv (s : State) (e : Env) : State := { s with env := e }

/-- `emit E`: append an event to the outputs (R9, R37). -/
def State.emit (s : State) (e : Event) : State := { s with outputs := s.outputs ++ [e] }

/-- `MemRead(a, 16)`: no side effect, never fails (R53). -/
def memRead (a : Nibble) (s : State) : Word := s.cells.read a.toNat

/-- `MemWrite(a, 16, v)`: changes no other cell, does not touch the store, never fails (R53). -/
def memWrite (a : Nibble) (v : Word) (s : State) : State := s.setCells (s.cells.write a.toNat v)

/-! ## The persistent store -/

/-- SAVE (R181, R182): the whole array is handed over, then the store takes what the drawn outcome leaves in it. The
cells never change. -/
def save (s : State) : State :=
  match s.env.saveOutcome with
  | .ok => (s.emit (.storeFlush s.cells.image)).setStore (some s.cells)
  | .fail image =>
    ((s.emit (.storeFlush s.cells.image)).setStore (image.map Memory.ofImage)).emit .storageIOFailure

/-- LOAD (R180): all sixteen cells from the store, or all zero. `loadFails` says that a store there is could not be
read or is short: the cells are zero and the failure is logged (R191, log 11). The store never changes. -/
def load (loadFails : Bool) (s : State) : State :=
  if loadFails then (s.setCells []).emit .storageIOFailure
  else s.setCells (s.store.getD [])

/-- POWER_ON (R211): LOAD, then every other element takes its value of `RESET_STATE`. -/
def powerOn (loadFails : Bool) (s : State) : State :=
  ((((load loadFails s).setNv (Nvram.ofReset s.cfg.resetValues)).setAux (AuxReceiver.ofReset s.cfg.resetValues)).setPlate
    s.cfg.resetValues.plate).setGrid s.cfg.resetValues.grid

/-- A machine instance at its first power-on: the parameters and the initial content of its store (R27, R38 (c)). -/
def launch (c : Config) (store : Option Memory) : State :=
  powerOn false { State.reset with cfg := c, store := store }

/-! ## The bytes of the blob -/

/-- The two bytes of a cell in blob order (R56). -/
def cellBytes (o : ByteOrder) (w : Word) : List Byte :=
  match o with
  | .little => [w.extractLsb' 0 8, w.extractLsb' 8 8]
  | .big => [w.extractLsb' 8 8, w.extractLsb' 0 8]

/-- The blob of 32 bytes: sixteen cells in ascending order, no header, no checksum, no padding (R56, R186). The byte
order is the parameter the spec leaves open (log 12). -/
def blobBytes (o : ByteOrder) (m : Memory) : List Byte :=
  (List.range 16).flatMap (fun i => cellBytes o (m.read i))

/-- A cell from its two bytes (R56). -/
def cellOfBytes (o : ByteOrder) (first second : Byte) : Word :=
  match o with
  | .little => second ++ first
  | .big => first ++ second

/-- The cells in a blob: none if it is short of 32 bytes, and whatever follows the first 32 is ignored (R180). -/
def cellsOfBlob (o : ByteOrder) (blob : List Byte) : Option Memory :=
  if blob.length < 32 then none
  else some ((List.range 16).foldl
    (fun m i => m.write i (cellOfBytes o (blob.getD (2 * i) 0) (blob.getD (2 * i + 1) 0))) [])

end Sys2Proof.Machine
end

