-- ==== Sys2Proof/Machine/Operands.lean ====
section
/-! DEFINITION. The operand forms: fields of the written nibble (R75 to R77), the assembled read nibble (R79), the bit
reversal (R135) and the nibble insert (R160). -/

namespace Sys2Proof.Machine

open Sys2Proof

/-- `v[i]` of a nibble as a bit (R7). -/
def nibbleBit (v : Nibble) (i : Fin 4) : Bit := BitVec.ofBool (v.getLsbD i.val)

/-- A bit placed at a position of a nibble whose other bits are 0. -/
def bitAt (b : Bit) (i : Fin 4) : Nibble := b.setWidth 4 <<< i.val

/-- The clock line of a P_SBUS write (R75). -/
def clockField (c : Config) (v : Nibble) : Bit := nibbleBit v c.sbClkBit

/-- The data line of a P_SBUS write (R75). -/
def dataField (c : Config) (v : Nibble) : Bit := nibbleBit v c.sbDataBit

/-- The strobe line of a P_SBUS write (R75). -/
def strobeField (c : Config) (v : Nibble) : Bit := nibbleBit v c.sbStrobeBit

/-- The P_SBUS nibble with given lines, its unused bit 0: `{s=, d=, c=}` of R84. -/
def sbusNibble (c : Config) (strobe data clock : Bit) : Nibble :=
  bitAt strobe c.sbStrobeBit ||| bitAt data c.sbDataBit ||| bitAt clock c.sbClkBit

/-- The plate bits of a P_PLGR write, `value[2:0]` (R76). -/
def plgrPlateField (v : Nibble) : BitVec 3 := v.extractLsb' 0 3

/-- The grid bit of a P_PLGR write, `value[3]` (R76). -/
def plgrGridField (v : Nibble) : Bit := v.extractLsb' 3 1

/-- A nibble and the shift it is placed at. -/
structure Placement where
  value : Nibble
  shift : Nat
deriving DecidableEq, Repr

/-- The value remap of the grid port: 12 becomes 1 at shift 5, every other value itself at shift 0 (R77). -/
def gridRemap (v : Nibble) : Placement := if v = 12 then ⟨1, 5⟩ else ⟨v, 0⟩

/-- The response of a P_SBUS read: `ext_in` with bit `NV_DOUT_BIT` replaced (R79, R104). -/
def assembleResponse (c : Config) (extIn : Nibble) (b : Bit) : Nibble :=
  (extIn &&& ~~~ bitAt 1 c.nvDoutBit) ||| bitAt b c.nvDoutBit

/-- `rev16`: bit 15 - i of the result is bit i of the argument (R135). -/
def rev16 (v : Word) : Word := v.reverse

/-- `ins4(r, s, v) = (r & ~(0xF << s)) | (v << s)` (R160). -/
def ins4 (r : Word) (s : Nat) (v : Nibble) : Word :=
  (r &&& ~~~ ((0xF : Word) <<< s)) ||| (v.setWidth 16 <<< s)

/-- A bit shifted in at bit 0 of the NVRAM data register: `trunc_16((v << 1) | bit)` (R127, R136; log 26). -/
def shiftIn16 (v : Word) (b : Bit) : Word := (v <<< 1) ||| b.setWidth 16

/-- A bit shifted in at bit 0 of the accumulator: `trunc_32((v << 1) | bit)` (R150; log 26). -/
def shiftIn32 (v : Frame) (b : Bit) : Frame := (v <<< 1) ||| b.setWidth 32

/-- The bit that leaves at bit 0 (R134). -/
def lowBit (v : Word) : Bit := v.extractLsb' 0 1

end Sys2Proof.Machine
end

