-- ==== Sys2Proof/Machine/Display.lean ====
section
/-! DEFINITION. The display register builder (R160 to R170). -/

namespace Sys2Proof.Machine

open Sys2Proof

/-- The composer's notification, once per display write, after the registers have their new values (R167; the spec's
D15, log 15). -/
def notifyDisplay (s : State) : State := s.emit (.displayNotify s.plate s.grid 13 6)

/-- A nibble of `plate` replaced (R161 to R163). -/
def writePlate (shift : Nat) (value : Nibble) (s : State) : State := s.setPlate (ins4 s.plate shift value)

/-- The grid port's value placed by its remap (R77, R165, R166; the spec's D19, log 19). -/
def placeGrid (value : Nibble) (s : State) : State :=
  s.setGrid (ins4 s.grid (gridRemap value).shift (gridRemap value).value)

/-- The side effect of an ordinary grid write: bit 5 is forced to 1 (R165). -/
def forceGridBit5 (s : State) : State := s.setGrid (s.grid ||| ((1 : Word) <<< 5))

/-- `plate[10:8]` replaced by the low three bits (R164). -/
def plgrPlate (p : Word) (value : Nibble) : Word :=
  (p &&& ~~~ ((0x7 : Word) <<< 8)) ||| ((plgrPlateField value).setWidth 16 <<< 8)

/-- `grid[4]` replaced by bit 3 (R164). -/
def plgrGrid (g : Word) (value : Nibble) : Word :=
  (g &&& ~~~ ((1 : Word) <<< 4)) ||| ((plgrGridField value).setWidth 16 <<< 4)

/-- WR_PLATE0 (R161). -/
def execWrPlate0 (value : Nibble) (s : State) : Host.Outcome State Fault Refusal :=
  .next (notifyDisplay (writePlate 0 value s))

/-- WR_PLATE1 (R162). -/
def execWrPlate1 (value : Nibble) (s : State) : Host.Outcome State Fault Refusal :=
  .next (notifyDisplay (writePlate 4 value s))

/-- WR_PLATE2 (R163). -/
def execWrPlate2 (value : Nibble) (s : State) : Host.Outcome State Fault Refusal :=
  .next (notifyDisplay (writePlate 8 value s))

/-- WR_PLGR: plate, then grid, then one notification (R164). -/
def execWrPlgr (value : Nibble) (s : State) : Host.Outcome State Fault Refusal :=
  .next (notifyDisplay ((s.setPlate (plgrPlate s.plate value)).setGrid (plgrGrid s.grid value)))

/-- WR_GRID: force bit 5, then insert the nibble (R165). -/
def execWrGrid (value : Nibble) (s : State) : Host.Outcome State Fault Refusal :=
  .next (notifyDisplay (placeGrid value (forceGridBit5 s)))

/-- WR_GRID_S12: the sentinel 12, remapped to 1 at shift 5, with no separate forcing of bit 5 (R166). -/
def execWrGridS12 (s : State) : Host.Outcome State Fault Refusal := .next (notifyDisplay (placeGrid 12 s))

end Sys2Proof.Machine
end

