-- ==== Sys2Proof/Machine/Flags.lean ====
section
/-! DEFINITION. The four one-bit flags: the rising-edge test (R101), the NVRAM controller's edge stage (R123) and the
receiver's flag updates (R150). -/

namespace Sys2Proof.Machine

open Sys2Proof

/-- `rising(p, c)`: true exactly when p = 0 and c = 1 (R101). -/
def rising (p c : Bit) : Bool := p == 0 && c == 1

/-- The pending flag after a real clock sample: raised by a rising edge in every mode but STANDBY, never cleared here
(R123). -/
def edgePending (n : Nvram) (clock : Bit) : Bool :=
  n.pendingTransfer || (n.mode != 0 && rising n.clockPrevious clock)

/-- The edge stage on the controller's registers; with NOCLK nothing happens (R123, the spec's D8, log 8). -/
def edgeNv (clock : Option Bit) (n : Nvram) : Nvram :=
  match clock with
  | none => n
  | some c => { n with pendingTransfer := edgePending n c, clockPrevious := c }

/-- The edge stage of NVSTEP (R123). -/
def edgeStage (clock : Option Bit) (s : State) : State := s.setNv (edgeNv clock s.nv)

/-- The receiver's registers after one sample: the accumulator shifts on a rising edge against the old flag, and both
flags are copied unconditionally (R150). -/
def auxNext (strobe clock data : Bit) (a : AuxReceiver) : AuxReceiver :=
  { accumulator := if rising a.clockPrevious clock then shiftIn32 a.accumulator data else a.accumulator
    strobed := strobe == 1
    clockPrevious := clock }

end Sys2Proof.Machine
end

