-- ==== Sys2Proof/Machine/AuxReceiver.lean ====
section
/-! DEFINITION. The auxiliary serial receiver (R150 to R154): its processing step and DRAIN. -/

namespace Sys2Proof.Machine

open Sys2Proof

/-- AUXSTEP(strobe, clock, data) (R150). -/
def auxStep (strobe clock data : Bit) (s : State) : State := s.setAux (auxNext strobe clock data s.aux)

/-- DRAIN: with the strobe flag set, the accumulator is delivered and both are reset; the previous clock is not. Both
fields of the word are ignored (R151, R82 (d); the spec's D14, log 14). -/
def execDrain (_port _value : Nibble) (s : State) : Host.Outcome State Fault Refusal :=
  .next (if s.aux.strobed then
      (s.emit (.auxFrame s.aux.accumulator)).setAux { s.aux with strobed := false, accumulator := 0 }
    else s)

end Sys2Proof.Machine
end

