-- ==== Sys2Proof/Syntax.lean ====
section
/-! DEFINITION. The operations of rule R83, one constructor for each row of spec/opcode_table.json: fourteen
transactions (format T, R71) and nine modes (format M, R78). Fields that an operation ignores are kept, so that an
operation remembers the whole word it came from (R82 (d)). -/

namespace Sys2Proof

inductive Instr where
  /-- WR_ADDR (R120). -/
  | wrAddr (value : Nibble)
  /-- WR_MODE (R121). -/
  | wrMode (value : Nibble)
  /-- WR_PLATE0 (R161). -/
  | wrPlate0 (value : Nibble)
  /-- WR_PLATE1 (R162). -/
  | wrPlate1 (value : Nibble)
  /-- WR_PLATE2 (R163). -/
  | wrPlate2 (value : Nibble)
  /-- WR_PLGR (R164). -/
  | wrPlgr (value : Nibble)
  /-- WR_GRID_S12 (R166): the sentinel 12 written to P_GRID. -/
  | wrGridS12
  /-- WR_GRID (R165): any other value written to P_GRID. -/
  | wrGrid (value : Nibble)
  /-- WR_SBUS (R103). -/
  | wrSbus (value : Nibble)
  /-- WR_NONE (R106): a write to an unassigned selector. -/
  | wrNone (port value : Nibble)
  /-- RD_SBUS (R104); the value field is ignored. -/
  | rdSbus (value : Nibble)
  /-- RD_IN (R105): a read of any port but P_SBUS; the value field is ignored. -/
  | rdIn (port value : Nibble)
  /-- DRAIN (R151); both fields are ignored. -/
  | drain (port value : Nibble)
  /-- INVALID (R107): the reserved kind 3, which spells no transaction. -/
  | invalid (port value : Nibble)
  /-- STANDBY, mode 0 (R125). -/
  | standby
  /-- READ_TO_OUTPUT, mode 1, write side (R126). -/
  | readToOutput
  /-- WRITE_TO_REGISTER, mode 2 (R127). -/
  | writeToRegister
  /-- WRITE_TO_ADDRESS, mode 3 (R128). -/
  | writeToAddress
  /-- STATION_MEMORY, mode 4 (R129). -/
  | stationMemory
  /-- ERASE, mode 5 (R130). -/
  | erase
  /-- READ, mode 6 (R131). -/
  | read
  /-- LAST_CHANNEL_MEMORY, mode 7 (R132). -/
  | lastChannelMemory
  /-- INERT, modes 8 to 15 (R133); `low` is the latch's bits 2 to 0. -/
  | inert (low : BitVec 3)
deriving DecidableEq, Repr

/-- An encoded operation: a 10-bit transaction word (R71) or the 4-bit content of the mode latch (R78). -/
inductive InstrWord where
  | transaction (w : BitVec 10)
  | mode (w : Nibble)
deriving DecidableEq, Repr

end Sys2Proof
end

