-- ==== Sys2Proof/WellFormed.lean ====
section
/-! DEFINITION. Which operations a word can spell under given parameters (rules R77, R81, R83). -/

namespace Sys2Proof

/-- WR_GRID takes every value but the sentinel (R165), WR_NONE a selector outside `PORT_MAP` (R106), RD_IN a port other
than P_SBUS (R105); every other operation takes any field values. -/
def Instr.wf (c : Config) : Instr → Bool
  | .wrGrid value => value != 12
  | .wrNone port _ => !c.ports.selectors.contains port
  | .rdIn port _ => port != c.ports.sbus
  | .wrAddr _ | .wrMode _ | .wrPlate0 _ | .wrPlate1 _ | .wrPlate2 _ | .wrPlgr _ | .wrGridS12 | .wrSbus _ | .rdSbus _
  | .drain _ _ | .invalid _ _ | .standby | .readToOutput | .writeToRegister | .writeToAddress | .stationMemory
  | .erase | .read | .lastChannelMemory | .inert _ => true

end Sys2Proof
end

