-- ==== Sys2Proof/Decode.lean ====
section
/-! DEFINITION. The decoding procedure of rule R81, total on every word, and the encoder written from the tables of
rules R71, R73 and R78. -/

namespace Sys2Proof

/-- The port that a selector names, none for an unassigned one (R73). -/
def PortMap.find (m : PortMap) (p : Nibble) : Option Port :=
  if p = m.addr then some .addr
  else if p = m.mode then some .mode
  else if p = m.plate0 then some .plate0
  else if p = m.plate1 then some .plate1
  else if p = m.plate2 then some .plate2
  else if p = m.plgr then some .plgr
  else if p = m.grid then some .grid
  else if p = m.sbus then some .sbus
  else none

/-- `kind`, bits 9 to 8 of the transaction word (R71). -/
def kindField (w : BitVec 10) : BitVec 2 := w.extractLsb' 8 2

/-- `port`, bits 7 to 4 (R71). -/
def portField (w : BitVec 10) : Nibble := w.extractLsb' 4 4

/-- `value`, bits 3 to 0 (R71). -/
def valueField (w : BitVec 10) : Nibble := w.extractLsb' 0 4

/-- A port write (kind 0): the operation of the port, P_GRID splitting on the sentinel 12 (R77, R81). -/
def decodeWrite (m : PortMap) (port value : Nibble) : Instr :=
  match m.find port with
  | none => .wrNone port value
  | some .addr => .wrAddr value
  | some .mode => .wrMode value
  | some .plate0 => .wrPlate0 value
  | some .plate1 => .wrPlate1 value
  | some .plate2 => .wrPlate2 value
  | some .plgr => .wrPlgr value
  | some .grid => if value = 12 then .wrGridS12 else .wrGrid value
  | some .sbus => .wrSbus value

/-- The decoding procedure of R81 on a transaction word. -/
def decodeTransaction (c : Config) (w : BitVec 10) : Instr :=
  if kindField w = 3 then .invalid (portField w) (valueField w)
  else if kindField w = 2 then .drain (portField w) (valueField w)
  else if kindField w = 1 then
    if portField w = c.ports.sbus then .rdSbus (valueField w) else .rdIn (portField w) (valueField w)
  else decodeWrite c.ports (portField w) (valueField w)

/-- The arm that a content of the mode latch selects (R78, R124). Codes: the spec's D18 (log 18). -/
def decodeMode (w : Nibble) : Instr :=
  if w = 0 then .standby
  else if w = 1 then .readToOutput
  else if w = 2 then .writeToRegister
  else if w = 3 then .writeToAddress
  else if w = 4 then .stationMemory
  else if w = 5 then .erase
  else if w = 6 then .read
  else if w = 7 then .lastChannelMemory
  else .inert (w.extractLsb' 0 3)

/-- Every word of either format decodes to one operation (R81, R124). -/
def decode (c : Config) : InstrWord → Instr
  | .transaction w => decodeTransaction c w
  | .mode w => decodeMode w

/-- Why a number is no instruction word. -/
inductive DecodeError where
  /-- A number of more than 10 bits where a transaction word is wanted (R71). -/
  | transactionWordTooWide
  /-- A number of more than 4 bits where a mode latch content is wanted (R78). -/
  | modeWordTooWide
deriving DecidableEq, Repr

/-- Which format `nbits`, the bits the table gives a row in whole bytes, stands for: 4 bits of format M fill one byte,
10 bits of format T two (log 33). -/
def isModeFormat (nbits : Nat) : Bool := decide (nbits ≤ 8)

/-- The instruction word in a number; bits above the word's width refuse it by name. -/
def wordOfNat (nbits w : Nat) : Except DecodeError InstrWord :=
  if isModeFormat nbits then
    if w < 16 then .ok (.mode (BitVec.ofNat 4 w)) else .error .modeWordTooWide
  else
    if w < 1024 then .ok (.transaction (BitVec.ofNat 10 w)) else .error .transactionWordTooWide

/-- The decoder on the opcode table's numbering, under the default parameters for which the table's match and mask
values are computed (R81). -/
def decodeTableWord (nbits w : Nat) : Option Instr :=
  match wordOfNat nbits w with
  | .ok word => some (decode Config.defaults word)
  | .error _ => none

/-- A transaction word from its fields (R71). -/
def transactionWord (kind : BitVec 2) (port value : Nibble) : BitVec 10 := (kind ++ port) ++ value

/-- The word of an operation (R71, R73, R77, R78, R83). -/
def encode (c : Config) : Instr → InstrWord
  | .wrAddr value => .transaction (transactionWord 0 c.ports.addr value)
  | .wrMode value => .transaction (transactionWord 0 c.ports.mode value)
  | .wrPlate0 value => .transaction (transactionWord 0 c.ports.plate0 value)
  | .wrPlate1 value => .transaction (transactionWord 0 c.ports.plate1 value)
  | .wrPlate2 value => .transaction (transactionWord 0 c.ports.plate2 value)
  | .wrPlgr value => .transaction (transactionWord 0 c.ports.plgr value)
  | .wrGridS12 => .transaction (transactionWord 0 c.ports.grid 12)
  | .wrGrid value => .transaction (transactionWord 0 c.ports.grid value)
  | .wrSbus value => .transaction (transactionWord 0 c.ports.sbus value)
  | .wrNone port value => .transaction (transactionWord 0 port value)
  | .rdSbus value => .transaction (transactionWord 1 c.ports.sbus value)
  | .rdIn port value => .transaction (transactionWord 1 port value)
  | .drain port value => .transaction (transactionWord 2 port value)
  | .invalid port value => .transaction (transactionWord 3 port value)
  | .standby => .mode 0
  | .readToOutput => .mode 1
  | .writeToRegister => .mode 2
  | .writeToAddress => .mode 3
  | .stationMemory => .mode 4
  | .erase => .mode 5
  | .read => .mode 6
  | .lastChannelMemory => .mode 7
  | .inert low => .mode ((1 : BitVec 1) ++ low)

/-- A row of spec/opcode_table.json: the bits it fixes and their values. -/
structure TableRow where
  mask  : Nat
  value : Nat
deriving DecidableEq, Repr

/-- The row of an operation in spec/opcode_table.json, from its "mask" and "match". -/
def tableRow : Instr → TableRow
  | .wrAddr _ => ⟨0x3F0, 0x000⟩
  | .wrMode _ => ⟨0x3F0, 0x010⟩
  | .wrPlate0 _ => ⟨0x3F0, 0x020⟩
  | .wrPlate1 _ => ⟨0x3F0, 0x030⟩
  | .wrPlate2 _ => ⟨0x3F0, 0x040⟩
  | .wrPlgr _ => ⟨0x3F0, 0x050⟩
  | .wrGridS12 => ⟨0x3FF, 0x06C⟩
  | .wrGrid _ => ⟨0x3F0, 0x060⟩
  | .wrSbus _ => ⟨0x3F0, 0x070⟩
  | .wrNone _ _ => ⟨0x380, 0x080⟩
  | .rdSbus _ => ⟨0x3F0, 0x170⟩
  | .rdIn _ _ => ⟨0x300, 0x100⟩
  | .drain _ _ => ⟨0x300, 0x200⟩
  | .invalid _ _ => ⟨0x300, 0x300⟩
  | .standby => ⟨0xF, 0x0⟩
  | .readToOutput => ⟨0xF, 0x1⟩
  | .writeToRegister => ⟨0xF, 0x2⟩
  | .writeToAddress => ⟨0xF, 0x3⟩
  | .stationMemory => ⟨0xF, 0x4⟩
  | .erase => ⟨0xF, 0x5⟩
  | .read => ⟨0xF, 0x6⟩
  | .lastChannelMemory => ⟨0xF, 0x7⟩
  | .inert _ => ⟨0x8, 0x8⟩

/-- The bits of an instruction word as one number. -/
def InstrWord.bits : InstrWord → Nat
  | .transaction w => w.toNat
  | .mode w => w.toNat

end Sys2Proof
end

