-- ==== Sys2Proof/Machine/Nvram.lean ====
section
/-! DEFINITION. The NVRAM controller (R120 to R137): the nine arms of its mode dispatch, NVSTEP, NVREAD, the latches
WR_ADDR and WR_MODE, and the meaning of each mode row of the opcode table. -/

namespace Sys2Proof.Machine

open Sys2Proof

/-! ## The arms of the mode dispatch -/

/-- STANDBY: the previous clock is forced to 0, nothing else moves (R125). -/
def armStandby (s : State) : State := s.setNv { s.nv with clockPrevious := 0 }

/-- READ_TO_OUTPUT, write side: nothing (R126, the spec's D23, log 23). -/
def armReadToOutput (s : State) : State := s

/-- WRITE_TO_REGISTER: with a transfer pending and the data bit present, shift it in and clear the flag (R127). -/
def armWriteToRegister (data : Option Bit) (s : State) : State :=
  match data with
  | none => s
  | some b =>
    if s.nv.pendingTransfer then
      s.setNv { s.nv with dataRegister := shiftIn16 s.nv.dataRegister b, pendingTransfer := false }
    else s

/-- WRITE_TO_ADDRESS: the data register goes bit-reversed into the addressed cell, then the array is saved (R128). -/
def armWriteToAddress (s : State) : State := save (memWrite s.nv.address (rev16 s.nv.dataRegister) s)

/-- STATION_MEMORY: no further state effect (R129). -/
def armStationMemory (s : State) : State := s

/-- ERASE: the addressed cell becomes 0; no flush (R130). -/
def armErase (s : State) : State := memWrite s.nv.address 0 s

/-- READ: the addressed cell is copied verbatim into the data register (R131). -/
def armRead (s : State) : State := s.setNv { s.nv with dataRegister := memRead s.nv.address s }

/-- LAST_CHANNEL_MEMORY: no further state effect (R132). -/
def armLastChannelMemory (s : State) : State := s

/-- Modes 8 to 15: no arm runs (R133, the spec's D9, log 9). -/
def armInert (s : State) : State := s

/-- The mode dispatch: exactly one arm, selected by the latch alone (R124). The latch holds a mode word, which decodes
to a mode row; no mode word decodes to a transaction. -/
def nvDispatch (data : Option Bit) (s : State) : State :=
  match decodeMode s.nv.mode with
  | .standby => armStandby s
  | .readToOutput => armReadToOutput s
  | .writeToRegister => armWriteToRegister data s
  | .writeToAddress => armWriteToAddress s
  | .stationMemory => armStationMemory s
  | .erase => armErase s
  | .read => armRead s
  | .lastChannelMemory => armLastChannelMemory s
  | .inert _ => armInert s
  | .wrAddr _ | .wrMode _ | .wrPlate0 _ | .wrPlate1 _ | .wrPlate2 _ | .wrPlgr _ | .wrGridS12 | .wrGrid _ | .wrSbus _
  | .wrNone _ _ | .rdSbus _ | .rdIn _ _ | .drain _ _ | .invalid _ _ => s

/-- NVSTEP(clock, data): the edge stage, then the mode dispatch, which sees the flag the edge stage has just produced
(R122). -/
def nvStep (clock data : Option Bit) (s : State) : State := nvDispatch data (edgeStage clock s)

/-! ## The read-side step -/

/-- Whether NVREAD moves a bit out (R134). -/
def outputReady (n : Nvram) : Bool := n.pendingTransfer && n.mode == 1

/-- The bit NVREAD returns: the low bit of the data register, or the neutral 0 (R134, R193). -/
def nvReadBit (s : State) : Bit := if outputReady s.nv then lowBit s.nv.dataRegister else 0

/-- The state NVREAD leaves: the register shifted right by one with a zero at the top and the flag cleared, or no change
(R134; log 26). -/
def nvRead (s : State) : State :=
  if outputReady s.nv then s.setNv { s.nv with dataRegister := s.nv.dataRegister >>> 1, pendingTransfer := false } else s

/-! ## The latches -/

/-- WR_ADDR: the address latch is overwritten and nothing else happens (R120; log 7). -/
def execWrAddr (value : Nibble) (s : State) : Host.Outcome State Fault Refusal :=
  .next (s.setNv { s.nv with address := value })

/-- WR_MODE: the mode latch is overwritten; then, where `NV_STEP_ON_MODE_WRITE` is set, NVSTEP runs with NOCLK and NODATA
(R121, the spec's D7, log 7). -/
def execWrMode (value : Nibble) (s : State) : Host.Outcome State Fault Refusal :=
  let latched := s.setNv { s.nv with mode := value }
  .next (if s.cfg.nvStepOnModeWrite then nvStep none none latched else latched)

/-! ## The mode rows: each arm by itself, the data argument from the draws (log 30, 31) -/

/-- STANDBY (R125). -/
def execStandby (s : State) : Host.Outcome State Fault Refusal := .next (armStandby s)

/-- READ_TO_OUTPUT, write side (R126). -/
def execReadToOutput (s : State) : Host.Outcome State Fault Refusal := .next (armReadToOutput s)

/-- WRITE_TO_REGISTER (R127). -/
def execWriteToRegister (s : State) : Host.Outcome State Fault Refusal := .next (armWriteToRegister s.env.nvData s)

/-- WRITE_TO_ADDRESS (R128). -/
def execWriteToAddress (s : State) : Host.Outcome State Fault Refusal := .next (armWriteToAddress s)

/-- STATION_MEMORY (R129). -/
def execStationMemory (s : State) : Host.Outcome State Fault Refusal := .next (armStationMemory s)

/-- ERASE (R130). -/
def execErase (s : State) : Host.Outcome State Fault Refusal := .next (armErase s)

/-- READ (R131). -/
def execRead (s : State) : Host.Outcome State Fault Refusal := .next (armRead s)

/-- LAST_CHANNEL_MEMORY (R132). -/
def execLastChannelMemory (s : State) : Host.Outcome State Fault Refusal := .next (armLastChannelMemory s)

/-- INERT, modes 8 to 15 (R133). -/
def execInert (_low : BitVec 3) (s : State) : Host.Outcome State Fault Refusal := .next (armInert s)

end Sys2Proof.Machine
end

