-- ==== Sys2Proof/Machine/SerialBus.lean ====
section
/-! DEFINITION. The port dispatcher's serial bus port and its ports without effect (R100 to R109). -/

namespace Sys2Proof.Machine

open Sys2Proof

/-- WR_SBUS: one sample, fed to NVSTEP and then to AUXSTEP (R103; the spec's D24, log 22). -/
def execWrSbus (value : Nibble) (s : State) : Host.Outcome State Fault Refusal :=
  let clock := clockField s.cfg value
  let data := dataField s.cfg value
  let strobe := strobeField s.cfg value
  .next (auxStep strobe clock data (nvStep (some clock) (some data) s))

/-- WR_NONE: a write to an unassigned selector has no effect (R106; the spec's D6, log 6). -/
def execWrNone (_port _value : Nibble) (s : State) : Host.Outcome State Fault Refusal := .next s

/-- RD_SBUS: NVREAD, then the response with the output bit in its place (R104; the spec's D4, D26, log 4, 25). -/
def execRdSbus (_value : Nibble) (s : State) : Host.Outcome State Fault Refusal :=
  .next ((nvRead s).emit (.readResponse (assembleResponse s.cfg s.env.extIn (nvReadBit s))))

/-- RD_IN: the response is the input nibble; no state is touched (R105; the spec's D5, log 5). -/
def execRdIn (_port _value : Nibble) (s : State) : Host.Outcome State Fault Refusal :=
  .next (s.emit (.readResponse s.env.extIn))

/-- INVALID: the reserved kind spells no transaction and has no successor (R107; the spec's D20, log 20). -/
def execInvalid (_port _value : Nibble) (_s : State) : Host.Outcome State Fault Refusal := .refused .reservedKind

end Sys2Proof.Machine
end

