-- ==== Sys2Proof/Machine/Dispatch.lean ====
section
/-! DEFINITION. One arm for each row of spec/opcode_table.json (R83, R100, R124). -/

namespace Sys2Proof.Machine

open Sys2Proof

/-- The meaning of an operation. -/
def exec (i : Instr) (s : State) : Host.Outcome State Fault Refusal :=
  match i with
  | .wrAddr value => Sys2Proof.Machine.execWrAddr value s
  | .wrMode value => Sys2Proof.Machine.execWrMode value s
  | .wrPlate0 value => Sys2Proof.Machine.execWrPlate0 value s
  | .wrPlate1 value => Sys2Proof.Machine.execWrPlate1 value s
  | .wrPlate2 value => Sys2Proof.Machine.execWrPlate2 value s
  | .wrPlgr value => Sys2Proof.Machine.execWrPlgr value s
  | .wrGridS12 => Sys2Proof.Machine.execWrGridS12 s
  | .wrGrid value => Sys2Proof.Machine.execWrGrid value s
  | .wrSbus value => Sys2Proof.Machine.execWrSbus value s
  | .wrNone port value => Sys2Proof.Machine.execWrNone port value s
  | .rdSbus value => Sys2Proof.Machine.execRdSbus value s
  | .rdIn port value => Sys2Proof.Machine.execRdIn port value s
  | .drain port value => Sys2Proof.Machine.execDrain port value s
  | .invalid port value => Sys2Proof.Machine.execInvalid port value s
  | .standby => Sys2Proof.Machine.execStandby s
  | .readToOutput => Sys2Proof.Machine.execReadToOutput s
  | .writeToRegister => Sys2Proof.Machine.execWriteToRegister s
  | .writeToAddress => Sys2Proof.Machine.execWriteToAddress s
  | .stationMemory => Sys2Proof.Machine.execStationMemory s
  | .erase => Sys2Proof.Machine.execErase s
  | .read => Sys2Proof.Machine.execRead s
  | .lastChannelMemory => Sys2Proof.Machine.execLastChannelMemory s
  | .inert low => Sys2Proof.Machine.execInert low s

end Sys2Proof.Machine
end

