-- ==== Sys2Proof/Machine/Serve.lean ====
section
/-! DEFINITION. How the block takes its next request (R8, R63), and how one instruction word is put in the place it is
taken from. Step.lean only calls these. -/

namespace Sys2Proof.Machine

open Sys2Proof

/-- The draws that come with a transaction (R38). -/
def transactionEnv (extIn : Nibble) (saveOutcome : SaveOutcome) : Env :=
  { extIn := extIn, saveOutcome := saveOutcome, nvData := none }

/-- The draws that come with a bare NVSTEP (log 30, 31). -/
def nvstepEnv (s : State) (saveOutcome : SaveOutcome) : Env :=
  { extIn := s.env.extIn, saveOutcome := saveOutcome, nvData := none }

/-- One request, whole (R58): a transaction is decoded and run; a power cycle is POWER_ON; a bare NVSTEP, which
brings no sample (R109), runs the edge stage with NOCLK and then the instruction that the mode latch holds (R122 to R124). -/
def serve (r : Request) (s : State) : Host.Outcome State Fault Refusal :=
  match r with
  | .transaction word extIn saveOutcome =>
    exec (decode s.cfg (.transaction word)) (s.setEnv (transactionEnv extIn saveOutcome))
  | .powerOn loadFails => .next (powerOn loadFails s)
  | .nvstep saveOutcome =>
    exec (decode s.cfg (.mode s.nv.mode)) ((edgeStage none s).setEnv (nvstepEnv s saveOutcome))

/-- The oldest request is taken off and served. With none to serve the block waits: "the block never acts
spontaneously" (R8, R211; log 16). -/
def serveNext (s : State) : Host.Outcome State Fault Refusal :=
  match s.requests with
  | [] => .next s
  | r :: rest => serve r (s.setRequests rest)

/-- Put an instruction word where the next step takes it from: a transaction word at the head of the requests, with the
draws the state holds; a mode word into the mode latch, with a bare NVSTEP at the head (log 16, 30). -/
def placeWord (s : State) (word : InstrWord) : State :=
  match word with
  | .transaction w => s.setRequests (.transaction w s.env.extIn s.env.saveOutcome :: s.requests)
  | .mode w => (s.setNv { s.nv with mode := w }).setRequests (.nvstep s.env.saveOutcome :: s.requests)

/-- The same for a number in the opcode table's numbering (log 33). -/
def placeTableWord (s : State) (nbits w : Nat) : State :=
  placeWord s (if isModeFormat nbits then .mode (BitVec.ofNat 4 w) else .transaction (BitVec.ofNat 10 w))

end Sys2Proof.Machine
end

