-- ==== Sys2Proof/Machine/Step.lean ====
section
/-! DEFINITION. The step relation of R8 as one function of the state. -/

namespace Sys2Proof.Machine

/-- One request of an agent, or waiting if there is none (R8). -/
def step (s : State) : Host.Outcome State Fault Refusal := serveNext s

/-- The state with an instruction word where the next step takes its instruction from (log 16, 30, 33). -/
def State.withFetchWord (s : State) (nbits w : Nat) : State := placeTableWord s nbits w

end Sys2Proof.Machine
end

