-- ==== Sys2Proof/Machine/Listing.lean ====
section
/-! DEFINITION. The listing lines of R84 as syntax trees, and the pseudo-operations of R85 as the transactions they
abbreviate (the spec's D21, D22; log 21). -/

namespace Sys2Proof.Machine

open Sys2Proof

/-- The `<port>` of a listing line: one of the eight names, or `#n` (R84). -/
inductive PortRef where
  | named (p : Port)
  | raw (n : Nibble)
deriving DecidableEq, Repr

/-- The selector a listing line names (R84). -/
def portSelector (m : PortMap) : PortRef → Nibble
  | .named p => m.selector p
  | .raw n => n

/-- One line of a listing (R84). The optional response of RD and result of DRAIN are the reader's claims, not part of
the transaction. -/
inductive Line where
  | wr (port : PortRef) (value : Nibble)
  | wrSbus (strobe data clock : Bit)
  | rd (port : PortRef)
  | drain
  | powerOn
deriving DecidableEq, Repr

/-- The request a line stands for, in its canonical spelling: ignored fields 0 (R71, R84). The environment's draws are
arguments (R38). -/
def assemble (c : Config) (extIn : Nibble) (saveOutcome : SaveOutcome) (loadFails : Bool) : Line → Request
  | .wr port value => .transaction (transactionWord 0 (portSelector c.ports port) value) extIn saveOutcome
  | .wrSbus strobe data clock =>
    .transaction (transactionWord 0 c.ports.sbus (sbusNibble c strobe data clock)) extIn saveOutcome
  | .rd port => .transaction (transactionWord 1 (portSelector c.ports port) 0) extIn saveOutcome
  | .drain => .transaction (transactionWord 2 0 0) extIn saveOutcome
  | .powerOn => .powerOn loadFails

/-- `LATCH_ADDR a` (R85). -/
def latchAddr (a : Nibble) : List Line := [.wr (.named .addr) a]

/-- `LATCH_MODE m` (R85). -/
def latchMode (m : Nibble) : List Line := [.wr (.named .mode) m]

/-- `PULSE b`: clock low, then clock high, both with the data bit (R85). -/
def pulse (b : Bit) : List Line := [.wrSbus 0 b 0, .wrSbus 0 b 1]

/-- `PULSE_S b`: the same with the strobe high in the second write only (R85). -/
def pulseS (b : Bit) : List Line := [.wrSbus 0 b 0, .wrSbus 1 b 1]

/-- `SHIFT_IN16 w`: sixteen pulses, most significant bit first (R85). -/
def shiftInLines (w : Word) : List Line :=
  (List.range 16).flatMap (fun k => pulse (BitVec.ofBool (w.getLsbD (15 - k))))

/-- `CLOCK_OUT`: one pulse, then one read (R85). -/
def clockOut : List Line := [.wrSbus 0 0 0, .wrSbus 0 0 1, .rd (.named .sbus)]

/-- `SHIFT_OUT16`: sixteen times CLOCK_OUT (R85). -/
def shiftOutLines : List Line := (List.range 16).flatMap (fun _ => clockOut)

/-- Operations one after another, each seeing every effect of the earlier ones (R63). -/
def execList : List Instr → State → Host.Outcome State Fault Refusal
  | [], s => .next s
  | i :: rest, s =>
    match exec i s with
    | .next t => execList rest t
    | .fault r => .fault r
    | .refused r => .refused r

/-- `PULSE b` as operations (R85). -/
def pulseInstrs (c : Config) (b : Bit) : List Instr :=
  [.wrSbus (sbusNibble c 0 b 0), .wrSbus (sbusNibble c 0 b 1)]

/-- `CLOCK_OUT` as operations (R85). -/
def clockOutInstrs (c : Config) : List Instr :=
  [.wrSbus (sbusNibble c 0 0 0), .wrSbus (sbusNibble c 0 0 1), .rdSbus 0]

end Sys2Proof.Machine
end

