-- ==== Sys2Proof/Safety.lean ====
section
/-! DEFINITION. What counts as a good state and a safe run, in the terms the claims use. -/

namespace Sys2Proof.Machine

open Sys2Proof

/-- The cells and the store are in canonical form. -/
abbrev MemoryCanonical (s : State) : Prop := s.cells.wf = true ∧ ∀ m, s.store = some m → m.wf = true

/-- `plate[15:12] = 0` and `grid[15:6] = 0`, in the registers and in the reset values they return to at power-on
(R36). -/
abbrev DisplayUpperBitsClear (s : State) : Prop :=
  (s.plate.extractLsb' 12 4 = 0 ∧ s.grid.extractLsb' 6 10 = 0) ∧
    (s.cfg.resetValues.plate.extractLsb' 12 4 = 0 ∧ s.cfg.resetValues.grid.extractLsb' 6 10 = 0)

/-- A step that answers a next state. -/
abbrev StepsOn (s : State) : Prop := ∃ t, step s = .next t

/-- A request that the model gives no successor: a transaction of the reserved kind (R82 (a), R107). -/
def Request.reserved : Request → Bool
  | .transaction word _ _ => kindField word == 3
  | .powerOn _ => false
  | .nvstep _ => false

/-- The six operations of the five display ports (R167, R169). -/
def writesDisplay : Instr → Bool
  | .wrPlate0 _ | .wrPlate1 _ | .wrPlate2 _ | .wrPlgr _ | .wrGrid _ | .wrGridS12 => true
  | _ => false

/-- The operations that reach the NVRAM controller's two steps: NVSTEP in WR_SBUS and WR_MODE, its arms by themselves,
and NVREAD in RD_SBUS (R34 (a), R83). -/
def reachesNvSteps : Instr → Bool
  | .wrSbus _ | .wrMode _ | .rdSbus _ => true
  | .standby | .readToOutput | .writeToRegister | .writeToAddress | .stationMemory | .erase | .read
  | .lastChannelMemory | .inert _ => true
  | _ => false

/-- The operations that run the mode dispatch (R122, R124). -/
def runsDispatch : Instr → Bool
  | .wrSbus _ | .wrMode _ => true
  | _ => false

/-- The composer's notification among the events (R167). -/
def isNotify : Event → Bool
  | .displayNotify _ _ _ _ => true
  | _ => false

/-- A save's event among the events (R181). -/
def isFlush : Event → Bool
  | .storeFlush _ => true
  | _ => false

/-- What WRITE_TO_ADDRESS leaves in the cells: bit i of the data register at bit 15 - i of the addressed cell, every
other cell as before (R128). -/
def StoredReversed (s : State) (m : Memory) : Prop :=
  (∀ k, k < 16 → (m.read s.nv.address.toNat).getLsbD (15 - k) = s.nv.dataRegister.getLsbD k) ∧
    ∀ a, a ≠ s.nv.address.toNat → m.read a = s.cells.read a

/-- What ERASE leaves in the cells (R130). -/
def Erased (s : State) (m : Memory) : Prop :=
  m.read s.nv.address.toNat = 0 ∧ ∀ a, a ≠ s.nv.address.toNat → m.read a = s.cells.read a

/-- What a save of the cells `m` leaves in the store and emits, by the outcome the state holds (R181, R182). -/
def SavedAs (s : State) (m : Memory) (store : Option Memory) (events : List Event) : Prop :=
  ∃ image : Image, (∀ i : Fin 16, image.get i = m.read i.val) ∧
    match s.env.saveOutcome with
    | .ok => store = some m ∧ events = [.storeFlush image]
    | .fail none => store = none ∧ events = [.storeFlush image, .storageIOFailure]
    | .fail (some torn) =>
      (∃ n, store = some n ∧ n.wf = true ∧ ∀ i : Fin 16, n.read i.val = torn.get i) ∧
        events = [.storeFlush image, .storageIOFailure]

/-- A word with a bit entered at bit 0 and every other bit moved up (R127). -/
def ShiftedIn (old new : Word) (b : Bool) : Prop :=
  new.getLsbD 0 = b ∧ ∀ k, k < 15 → new.getLsbD (k + 1) = old.getLsbD k

/-- The receiver's registers after a P_SBUS write of `v` (R150): on a rising edge against the old flag the data bit
enters the accumulator at bit 0, otherwise the accumulator is kept; both flags are copied from the lines. -/
def ReceiverAfter (s : State) (v : Nibble) (a : AuxReceiver) : Prop :=
  a.clockPrevious = BitVec.ofBool (v.getLsbD s.cfg.sbClkBit.val) ∧ a.strobed = v.getLsbD s.cfg.sbStrobeBit.val ∧
    if s.aux.clockPrevious = 0 ∧ v.getLsbD s.cfg.sbClkBit.val = true then
      a.accumulator.getLsbD 0 = v.getLsbD s.cfg.sbDataBit.val ∧
        ∀ k, k < 31 → a.accumulator.getLsbD (k + 1) = s.aux.accumulator.getLsbD k
    else a.accumulator = s.aux.accumulator

/-- Whether a P_SBUS write of `v` is a rising edge for the NVRAM controller (R101, R123). -/
def nvEdge (s : State) (v : Nibble) : Bool := s.nv.clockPrevious == 0 && v.getLsbD s.cfg.sbClkBit.val

/-- The clock line of a P_SBUS write as the flag that stores it (R75, R123). -/
def clockLine (s : State) (v : Nibble) : Bit := BitVec.ofBool (v.getLsbD s.cfg.sbClkBit.val)

end Sys2Proof.Machine
end

