-- ==== Sys2Proof/Certificates/Slice0/Obligations.lean ====
section
/-! DEFINITION. The statements for the provers. "Log n" is notes/assumptions/n.md. Where a statement rests on one of the
spec's own decisions, its docstring names the decision. -/

open Sys2Proof Sys2Proof.Machine

/-! ## Encoding -/

/-- Decoding the word of a well-formed operation gives it back, under every admissible setting of the parameters: no
bit of a word is dropped (R71, R81; the word is the spec's D1, log 1). -/
def Obligations.DecodeOfEncodeGivesInstr : Prop :=
  ∀ (c : Config) (i : Instr), c.wf = true → i.wf c = true → decode c (encode c i) = i

/-- Every word of either format spells exactly one well-formed operation, whose word it is: "The decoder is total on
all 1024 words" (R81; the spec's D1, log 1). -/
def Obligations.EncodeOfDecodeGivesWord : Prop :=
  ∀ (c : Config) (w : InstrWord), c.wf = true → (decode c w).wf c = true ∧ encode c (decode c w) = w

/-- Words of 95_test_vectors.md §2.1, and the mode codes of R78, decode to the operations the spec lists (default
parameters: log 2, 18). The sizes 8 and 16, and that 0x400 is refused for its width, are the model's (log 33). -/
def Obligations.SpecVectorsDecode : Prop :=
  decodeTableWord 16 0x003 = some (.wrAddr 3) ∧ decodeTableWord 16 0x019 = some (.wrMode 9) ∧
  decodeTableWord 16 0x02A = some (.wrPlate0 10) ∧ decodeTableWord 16 0x035 = some (.wrPlate1 5) ∧
  decodeTableWord 16 0x04F = some (.wrPlate2 15) ∧ decodeTableWord 16 0x058 = some (.wrPlgr 8) ∧
  decodeTableWord 16 0x06C = some .wrGridS12 ∧ decodeTableWord 16 0x06D = some (.wrGrid 13) ∧
  decodeTableWord 16 0x077 = some (.wrSbus 7) ∧ decodeTableWord 16 0x0FF = some (.wrNone 15 15) ∧
  decodeTableWord 16 0x17F = some (.rdSbus 15) ∧ decodeTableWord 16 0x160 = some (.rdIn 6 0) ∧
  decodeTableWord 16 0x2AB = some (.drain 10 11) ∧ decodeTableWord 16 0x3FF = some (.invalid 15 15) ∧
  decodeTableWord 8 0x0 = some .standby ∧ decodeTableWord 8 0x3 = some .writeToAddress ∧
  decodeTableWord 8 0x7 = some .lastChannelMemory ∧ decodeTableWord 8 0xF = some (.inert 7) ∧
  decodeTableWord 16 0x400 = none

/-- The decoding procedure of R81, for every admissible port map: the kind, then the port, then the sentinel 12 on
P_GRID (the spec's D1, D2; log 1, 2). -/
def Obligations.DecodingFollowsKindPortValue : Prop :=
  ∀ (c : Config) (w : BitVec 10), c.wf = true →
    (kindField w = 3 → decode c (.transaction w) = .invalid (portField w) (valueField w)) ∧
    (kindField w = 2 → decode c (.transaction w) = .drain (portField w) (valueField w)) ∧
    (kindField w = 1 → portField w = c.ports.sbus → decode c (.transaction w) = .rdSbus (valueField w)) ∧
    (kindField w = 1 → portField w ≠ c.ports.sbus →
      decode c (.transaction w) = .rdIn (portField w) (valueField w)) ∧
    (kindField w = 0 → portField w ∉ c.ports.selectors →
      decode c (.transaction w) = .wrNone (portField w) (valueField w)) ∧
    (kindField w = 0 → portField w = c.ports.addr → decode c (.transaction w) = .wrAddr (valueField w)) ∧
    (kindField w = 0 → portField w = c.ports.mode → decode c (.transaction w) = .wrMode (valueField w)) ∧
    (kindField w = 0 → portField w = c.ports.plate0 → decode c (.transaction w) = .wrPlate0 (valueField w)) ∧
    (kindField w = 0 → portField w = c.ports.plate1 → decode c (.transaction w) = .wrPlate1 (valueField w)) ∧
    (kindField w = 0 → portField w = c.ports.plate2 → decode c (.transaction w) = .wrPlate2 (valueField w)) ∧
    (kindField w = 0 → portField w = c.ports.plgr → decode c (.transaction w) = .wrPlgr (valueField w)) ∧
    (kindField w = 0 → portField w = c.ports.grid → valueField w = 12 →
      decode c (.transaction w) = .wrGridS12) ∧
    (kindField w = 0 → portField w = c.ports.grid → valueField w ≠ 12 →
      decode c (.transaction w) = .wrGrid (valueField w)) ∧
    (kindField w = 0 → portField w = c.ports.sbus → decode c (.transaction w) = .wrSbus (valueField w))

/-! ## The step -/

/-- A step takes the oldest transaction off the list and runs the operation its word decodes to, with the draws that
came with it (R8; the list is log 16, the draws log 25). -/
def Obligations.StepRunsDecodedTransaction : Prop :=
  ∀ (s : State) (w : BitVec 10) (x : Nibble) (o : SaveOutcome) (rest : List Request) (i : Instr),
    s.requests = .transaction w x o :: rest → decode s.cfg (.transaction w) = i →
      step s = exec i { s with requests := rest, env := { extIn := x, saveOutcome := o, nvData := none } }

/-- A bare NVSTEP runs the operation that the mode latch holds, with no sample, so that the edge stage before it is idle
(R109, R122 to R124; the spec's D8, log 8; the bare NVSTEP is the model's own, log 30, 31). -/
def Obligations.StepRunsLatchedMode : Prop :=
  ∀ (s : State) (o : SaveOutcome) (rest : List Request) (i : Instr),
    s.requests = .nvstep o :: rest → decode s.cfg (.mode s.nv.mode) = i →
      step s = exec i { s with
        requests := rest, env := { extIn := s.env.extIn, saveOutcome := o, nvData := none } }

/-- A word placed for the next step is what the next step runs, in the state as it was but for the latch that holds a
mode word and the cleared data argument (log 16, 30, 33). -/
def Obligations.PlacedWordRunsNext : Prop :=
  ∀ (s : State) (w : BitVec 10) (m : Nibble),
    step (s.withFetchWord 16 w.toNat) =
      exec (decode s.cfg (.transaction w)) { s with env := { s.env with nvData := none } } ∧
    step (s.withFetchWord 8 m.toNat) =
      exec (decode s.cfg (.mode m)) { s with nv := { s.nv with mode := m }, env := { s.env with nvData := none } }

/-- With nothing asked of it the block waits, its state unchanged: "The block itself never acts spontaneously" (R8, R211;
that waiting is a next state is log 16). -/
def Obligations.StepWaitsWithoutRequest : Prop :=
  ∀ s : State, s.requests = [] → step s = .next s

/-- Every step answers a next state, except on a transaction of the reserved kind, which has none: "Every operation …
completes with the state its rule gives" (R190, R107; the spec's D17, D20, log 17, 20). -/
def Obligations.StepCompletesUnlessReservedKind : Prop :=
  ∀ s : State, StepsOn s ↔ ∀ r, s.requests.head? = some r → r.reserved = false

/-- A step takes exactly one request off and only appends to the events (R8, R37, R58; log 16, 29). -/
def Obligations.StepTakesOneRequestAndAppendsEvents : Prop :=
  ∀ s t : State, step s = .next t → t.requests = s.requests.tail ∧ ∃ es, t.outputs = s.outputs ++ es

/-- POWER_ON: the cells are the store's, or zero; every other element takes its value of RESET_STATE; the store is not
changed and no event is emitted but the report of a store that could not be read (R180, R211; the spec's D10, D11, D25,
log 10, 11, 24). -/
def Obligations.PowerOnRestoresResetValues : Prop :=
  ∀ (s : State) (rest : List Request),
    (s.requests = .powerOn false :: rest →
      step s = .next { s with
        requests := rest
        cells := s.store.getD []
        nv := { mode := s.cfg.resetValues.nvMode, address := s.cfg.resetValues.nvAddress
                dataRegister := s.cfg.resetValues.nvDataRegister
                clockPrevious := s.cfg.resetValues.nvClockPrevious
                pendingTransfer := s.cfg.resetValues.nvPendingTransfer }
        aux := { clockPrevious := s.cfg.resetValues.auxClockPrevious, strobed := s.cfg.resetValues.auxStrobed
                 accumulator := s.cfg.resetValues.auxAccumulator }
        plate := s.cfg.resetValues.plate
        grid := s.cfg.resetValues.grid }) ∧
    (s.requests = .powerOn true :: rest →
      step s = .next { s with
        requests := rest
        cells := []
        nv := { mode := s.cfg.resetValues.nvMode, address := s.cfg.resetValues.nvAddress
                dataRegister := s.cfg.resetValues.nvDataRegister
                clockPrevious := s.cfg.resetValues.nvClockPrevious
                pendingTransfer := s.cfg.resetValues.nvPendingTransfer }
        aux := { clockPrevious := s.cfg.resetValues.auxClockPrevious, strobed := s.cfg.resetValues.auxStrobed
                 accumulator := s.cfg.resetValues.auxAccumulator }
        plate := s.cfg.resetValues.plate
        grid := s.cfg.resetValues.grid
        outputs := s.outputs ++ [.storageIOFailure] })

/-! ## Invariants of every step -/

/-- Every step keeps the cells and the store in canonical form (R26, R27, R53; the representation is log 32). -/
def Obligations.StepKeepsMemoryCanonical : Prop :=
  ∀ s t : State, MemoryCanonical s → step s = .next t → MemoryCanonical t

/-- "If `plate[15:12] = 0` and `grid[15:6] = 0` hold at reset … then they hold after every step" (R36, which the spec
derives from R161 to R166). -/
def Obligations.StepKeepsDisplayUpperBitsClear : Prop :=
  ∀ s t : State, DisplayUpperBitsClear s → step s = .next t → DisplayUpperBitsClear t

/-- The reset state meets both invariants (R36, R39; log 10, 27, 32). -/
def Obligations.ResetMeetsInvariants : Prop :=
  MemoryCanonical State.reset ∧ DisplayUpperBitsClear State.reset ∧ State.reset.cfg.wf = true

/-- Once set, `grid[5]` stays set through every step but a power-on: "nothing clears it" (R169, R229, which the spec
derives from R161 to R166). -/
def Obligations.GridBit5StaysSetUntilPowerOn : Prop :=
  ∀ s t : State, s.grid.getLsbD 5 = true → (∀ f, s.requests.head? ≠ some (.powerOn f)) → step s = .next t →
    t.grid.getLsbD 5 = true

/-- No step changes a parameter (R6; log 28). -/
def Obligations.StepKeepsParameters : Prop :=
  ∀ s t : State, step s = .next t → t.cfg = s.cfg

/-! ## Whole-machine rules -/

/-- The ownership invariants of R34, which the spec derives from the operation rules: which operation may change which
element, each of the twelve of R20. An arm of the mode dispatch stands for NVSTEP where it is an operation by itself
(log 30). The controller's previous clock takes a sample only in a P_SBUS write (R24, R109) and is forced to 0 by the
STANDBY arm (R125), which WR_MODE to 0 runs where the step is on (the spec's D7, log 7). -/
def Obligations.ElementsChangeOnlyByOwners : Prop :=
  ∀ (i : Instr) (s t : State), exec i s = .next t →
    (t.nv.dataRegister ≠ s.nv.dataRegister → reachesNvSteps i = true) ∧
    (t.nv.pendingTransfer ≠ s.nv.pendingTransfer → reachesNvSteps i = true) ∧
    (t.nv.clockPrevious ≠ s.nv.clockPrevious →
      (∃ v, i = .wrSbus v ∧ (t.nv.clockPrevious = clockLine s v ∨ s.nv.mode = 0 ∧ t.nv.clockPrevious = 0)) ∨
      (i = .wrMode 0 ∧ s.cfg.nvStepOnModeWrite = true ∨ i = .standby) ∧ t.nv.clockPrevious = 0) ∧
    (t.nv.mode ≠ s.nv.mode → ∃ v, i = .wrMode v) ∧
    (t.nv.address ≠ s.nv.address → ∃ v, i = .wrAddr v) ∧
    (t.aux ≠ s.aux → (∃ v, i = .wrSbus v) ∨ ∃ p v, i = .drain p v) ∧
    (t.plate ≠ s.plate ∨ t.grid ≠ s.grid → writesDisplay i = true) ∧
    (t.cells ≠ s.cells →
      (runsDispatch i = true ∧ (t.nv.mode = 3 ∨ t.nv.mode = 5)) ∨ i = .writeToAddress ∨ i = .erase) ∧
    (t.store ≠ s.store → (runsDispatch i = true ∧ t.nv.mode = 3) ∨ i = .writeToAddress)

/-- An operation that clears a pending transfer moved a bit: WRITE_TO_REGISTER moved one in, the written data bit or the
row's data argument, or NVREAD moved one out in mode 1: "No other rule clears it" (R25; the row by itself is log 30, 31; a
power-on, which is no operation, resets the flag). -/
def Obligations.PendingClearedOnlyByMovedBit : Prop :=
  ∀ (i : Instr) (s t : State), exec i s = .next t → s.nv.pendingTransfer = true → t.nv.pendingTransfer = false →
    (∃ v, i = .wrSbus v ∧ s.nv.mode = 2 ∧
      ShiftedIn s.nv.dataRegister t.nv.dataRegister (v.getLsbD s.cfg.sbDataBit.val)) ∨
    (∃ v, i = .rdSbus v ∧ s.nv.mode = 1 ∧ t.nv.dataRegister = s.nv.dataRegister >>> 1) ∨
    (i = .writeToRegister ∧ ∃ b : Bit, s.env.nvData = some b ∧
      ShiftedIn s.nv.dataRegister t.nv.dataRegister (b.getLsbD 0))

/-- Each write to a display port notifies the composer exactly once, with the new pair and the extent 13 by 6, and no
other operation does (R167; the spec's D15, log 15). -/
def Obligations.NotifiesOncePerDisplayWrite : Prop :=
  ∀ (i : Instr) (s t : State), exec i s = .next t →
    ∃ es, t.outputs = s.outputs ++ es ∧ es.countP isNotify = (if writesDisplay i then 1 else 0) ∧
      ∀ e ∈ es, isNotify e = true → e = .displayNotify t.plate t.grid 13 6

/-- Only the WRITE_TO_ADDRESS arm saves: an operation emits a StoreFlush exactly when it runs that arm (R67, R128, R181;
which writes run the dispatch is the spec's D7, log 7). -/
def Obligations.FlushesOnlyInWriteToAddress : Prop :=
  ∀ (i : Instr) (s t : State), exec i s = .next t →
    ∃ es, t.outputs = s.outputs ++ es ∧
      ((∃ e ∈ es, isFlush e = true) ↔
        (∃ v, i = .wrSbus v) ∧ s.nv.mode = 3 ∨ i = .wrMode 3 ∧ s.cfg.nvStepOnModeWrite = true ∨ i = .writeToAddress)

/-- The two listeners commute on every sample (R108; the order in WR_SBUS is the spec's D24, log 22). -/
def Obligations.ListenersCommute : Prop :=
  ∀ (strobe clock data : Bit) (s : State),
    auxStep strobe clock data (nvStep (some clock) (some data) s) =
      nvStep (some clock) (some data) (auxStep strobe clock data s)

/-- The receiver and the display registers depend on no NVRAM element: with any other NVRAM controller,
cells and store the same operation leaves the same receiver and the same display registers (R34 (f), R153). -/
def Obligations.ReceiverIgnoresNvram : Prop :=
  ∀ (i : Instr) (s t : State) (n : Nvram) (m : Memory) (st : Option Memory), exec i s = .next t →
    ∃ u, exec i { s with nv := n, cells := m, store := st } = .next u ∧
      u.aux = t.aux ∧ u.plate = t.plate ∧ u.grid = t.grid

/-- Nothing outside the receiver depends on it except through a drain: with any other receiver the same operation leaves
everything but the receiver the same, the events included (R108, R154; "The host has no port that reads `aux.accumulator`
or `aux.strobed`"). The receiver's own next registers do depend on it, in a P_SBUS write (R150). -/
def Obligations.NothingOutsideDependsOnReceiverButByDrain : Prop :=
  ∀ (i : Instr) (s t : State) (a : AuxReceiver), (∀ p v, i ≠ .drain p v) → exec i s = .next t →
    ∃ b, exec i { s with aux := a } = .next { t with aux := b }

/-- A level action done twice leaves the volatile elements as the first left them (R60, which the spec derives from the
arms). -/
def Obligations.LevelActionsIdempotent : Prop :=
  ∀ (i : Instr) (s : State), i = .standby ∨ i = .writeToAddress ∨ i = .erase ∨ i = .read →
    ∃ t u, exec i s = .next t ∧ exec i t = .next u ∧ u.nv = t.nv ∧ u.cells = t.cells ∧ u.aux = t.aux ∧
      u.plate = t.plate ∧ u.grid = t.grid

/-! ## The latches -/

/-- WR_ADDR overwrites the address latch, whatever the value, and changes nothing else: no step runs and nothing is
emitted (R120; the spec's D7, log 7). -/
def Obligations.WrAddrLatchesAddressOnly : Prop :=
  ∀ (v : Nibble) (s : State), exec (.wrAddr v) s = .next { s with nv := { s.nv with address := v } }

/-- WR_MODE without the step is the assignment alone, for every value (R121; the spec's D7 and D9, log 7, 9). -/
def Obligations.WrModeWithoutStepLatchesOnly : Prop :=
  ∀ (v : Nibble) (s : State), s.cfg.nvStepOnModeWrite = false →
    exec (.wrMode v) s = .next { s with nv := { s.nv with mode := v } }

/-- WR_MODE with the step, to a mode without a level action (1, 2, 4, 7, 8 to 15): only the latch changes; a pending
transfer stays pending, since the step has neither clock nor data (R121, R126, R127 (a), R129, R132, R133, R192; the
spec's D7, D8, D9, D18, D23, log 7, 8, 9, 18, 23). -/
def Obligations.WrModeToModeWithoutLevelAction : Prop :=
  ∀ (v : Nibble) (s : State), s.cfg.nvStepOnModeWrite = true → v ≠ 0 → v ≠ 3 → v ≠ 5 → v ≠ 6 →
    exec (.wrMode v) s = .next { s with nv := { s.nv with mode := v } }

/-- WR_MODE with the step, to STANDBY, ERASE or READ: the latch, and the new mode's level action at once (R121, R125,
R130, R131; the spec's D7, D18, log 7, 18). -/
def Obligations.WrModeToStandbyEraseRead : Prop :=
  ∀ s : State, s.cfg.nvStepOnModeWrite = true →
    exec (.wrMode 0) s = .next { s with nv := { s.nv with mode := 0, clockPrevious := 0 } } ∧
    (∃ m, Erased s m ∧ exec (.wrMode 5) s = .next { s with nv := { s.nv with mode := 5 }, cells := m }) ∧
    exec (.wrMode 6) s =
      .next { s with nv := { s.nv with mode := 6, dataRegister := s.cells.read s.nv.address.toNat } }

/-- WR_MODE with the step, to WRITE_TO_ADDRESS: the latch, the reversed store and the save, by the drawn outcome (R121,
R128, R181; the spec's D7, D13, D18, log 7, 13, 18). -/
def Obligations.WrModeToWriteToAddress : Prop :=
  ∀ s : State, s.cfg.nvStepOnModeWrite = true →
    ∃ m store events, StoredReversed s m ∧ SavedAs s m store events ∧
      exec (.wrMode 3) s = .next { s with
        nv := { s.nv with mode := 3 }, cells := m, store := store, outputs := s.outputs ++ events }

/-! ## The mode rows, each arm by itself -/

/-- STANDBY forces the previous clock to 0 and moves nothing else, on every step while mode 0 is latched, whatever the
samples: no edge is taken and a pending transfer stays pending (R125). -/
def Obligations.StandbyForcesClockPreviousZero : Prop :=
  ∀ (clock data : Option Bit) (s : State),
    exec .standby s = .next { s with nv := { s.nv with clockPrevious := 0 } } ∧
      (s.nv.mode = 0 → nvStep clock data s = { s with nv := { s.nv with clockPrevious := 0 } })

/-- READ_TO_OUTPUT's write side, STATION_MEMORY, LAST_CHANNEL_MEMORY and the inert modes have no effect of their own
(R126, R129, R132, R133; the spec's D9, D23, log 9, 23). -/
def Obligations.ModesWithoutArmChangeNothing : Prop :=
  ∀ (low : BitVec 3) (s : State), exec .readToOutput s = .next s ∧ exec .stationMemory s = .next s ∧
    exec .lastChannelMemory s = .next s ∧ exec (.inert low) s = .next s

/-- WRITE_TO_REGISTER: with a transfer pending and a data bit present the bit enters at the low end and the flag is
cleared; otherwise nothing moves and a pending transfer stays pending (R127; the row by itself and its data argument are
the model's, log 30, 31). -/
def Obligations.WriteToRegisterShiftsDataIn : Prop :=
  ∀ s : State,
    (∀ b : Bit, s.nv.pendingTransfer = true → s.env.nvData = some b →
      ∃ d, ShiftedIn s.nv.dataRegister d (b.getLsbD 0) ∧
        exec .writeToRegister s = .next { s with nv := { s.nv with dataRegister := d, pendingTransfer := false } }) ∧
    (s.nv.pendingTransfer = false ∨ s.env.nvData = none → exec .writeToRegister s = .next s)

/-- WRITE_TO_ADDRESS stores the data register bit-reversed into the addressed cell and saves the whole array, by the
drawn outcome; the data register stays (R128, R181, R182; the failure images are the spec's D13, log 13). -/
def Obligations.WriteToAddressStoresReversedAndSaves : Prop :=
  ∀ s : State, ∃ m store events, StoredReversed s m ∧ SavedAs s m store events ∧
    exec .writeToAddress s = .next { s with cells := m, store := store, outputs := s.outputs ++ events }

/-- ERASE zeroes the addressed cell and nothing else, with no flush; and every step while mode 5 is latched does it again,
beside the edge stage (R130). -/
def Obligations.EraseZeroesAddressedCell : Prop :=
  ∀ (clock data : Option Bit) (s : State), ∃ m, Erased s m ∧ exec .erase s = .next { s with cells := m } ∧
    (s.nv.mode = 5 → nvStep clock data s = { edgeStage clock s with cells := m })

/-- READ copies the addressed cell into the data register verbatim and changes nothing else; and every step while mode 6
is latched does it again, beside the edge stage (R131). -/
def Obligations.ReadCopiesCellVerbatim : Prop :=
  ∀ (clock data : Option Bit) (s : State),
    exec .read s = .next { s with nv := { s.nv with dataRegister := s.cells.read s.nv.address.toNat } } ∧
      (s.nv.mode = 6 → nvStep clock data s = { edgeStage clock s with
        nv := { (edgeStage clock s).nv with dataRegister := s.cells.read s.nv.address.toNat } })

/-- NVSTEP, with any clock sample or none and any data bit or none, is its edge stage and then the operation that the
latched mode decodes to: the dispatch inside WR_SBUS (a real sample) and inside WR_MODE (none) and the mode rows of the
opcode table are the same arms (R122 to R124; the rows by themselves and their data argument are the model's, log 30, 31;
that the edge stage is idle without a clock is the spec's D8, log 8). -/
def Obligations.NvstepRunsLatchedModeRow : Prop :=
  ∀ (s : State) (clock data : Option Bit),
    exec (decode s.cfg (.mode s.nv.mode)) { edgeStage clock s with env := { s.env with nvData := data } } =
      .next { nvStep clock data s with env := { s.env with nvData := data } } ∧
    edgeStage none s = s

/-! ## The serial bus port -/

/-- Every P_SBUS write feeds the receiver, whatever the NVRAM mode, and touches neither display register; and nothing
else but a drain changes the receiver (R34, R103, R150, R151, R154; the lines' bits are the spec's D3, log 3). -/
def Obligations.WrSbusFeedsReceiver : Prop :=
  ∀ (v : Nibble) (s : State),
    (∃ t, exec (.wrSbus v) s = .next t ∧ ReceiverAfter s v t.aux ∧ t.plate = s.plate ∧ t.grid = s.grid) ∧
    ∀ (i : Instr) (t : State), (∀ w, i ≠ .wrSbus w) → (∀ p w, i ≠ .drain p w) → exec i s = .next t → t.aux = s.aux

/-- WR_SBUS in STANDBY: no edge is taken, the previous clock is held at 0, a pending transfer stays, and the receiver
takes the sample (R103, R123, R125; the spec's D3, log 3). -/
def Obligations.WrSbusInStandby : Prop :=
  ∀ (v : Nibble) (s : State), s.nv.mode = 0 → ∃ a, ReceiverAfter s v a ∧
    exec (.wrSbus v) s = .next { s with aux := a, nv := { s.nv with clockPrevious := 0 } }

/-- WR_SBUS in a mode whose arm does nothing (1, 4, 7, 8 to 15): the edge stage alone, and the receiver (R103, R123, R126,
R129, R132, R133; the spec's D3, D9, D23, log 3, 9, 23). -/
def Obligations.WrSbusInModesWithoutArm : Prop :=
  ∀ (v : Nibble) (s : State), s.nv.mode ≠ 0 → s.nv.mode ≠ 2 → s.nv.mode ≠ 3 → s.nv.mode ≠ 5 → s.nv.mode ≠ 6 →
    ∃ a, ReceiverAfter s v a ∧
      exec (.wrSbus v) s = .next { s with
        aux := a
        nv := { s.nv with clockPrevious := clockLine s v, pendingTransfer := s.nv.pendingTransfer || nvEdge s v } }

/-- WR_SBUS in WRITE_TO_REGISTER: a pending transfer, this write's edge or an earlier one, is consumed at once by this
write's data bit; without one the register is kept (R103, R123, R127; the spec's D3, log 3). -/
def Obligations.WrSbusInWriteToRegister : Prop :=
  ∀ (v : Nibble) (s : State), s.nv.mode = 2 → ∃ a, ReceiverAfter s v a ∧
    ((s.nv.pendingTransfer || nvEdge s v) = true →
      ∃ d, ShiftedIn s.nv.dataRegister d (v.getLsbD s.cfg.sbDataBit.val) ∧
        exec (.wrSbus v) s = .next { s with
          aux := a, nv := { s.nv with clockPrevious := clockLine s v, dataRegister := d, pendingTransfer := false } }) ∧
    ((s.nv.pendingTransfer || nvEdge s v) = false →
      exec (.wrSbus v) s = .next { s with aux := a, nv := { s.nv with clockPrevious := clockLine s v } })

/-- WR_SBUS in WRITE_TO_ADDRESS: the edge stage, then store and save on every write, with an edge or without (R103, R123,
R128, R224; the spec's D3, D13, log 3, 13). -/
def Obligations.WrSbusInWriteToAddress : Prop :=
  ∀ (v : Nibble) (s : State), s.nv.mode = 3 →
    ∃ a m store events, ReceiverAfter s v a ∧ StoredReversed s m ∧ SavedAs s m store events ∧
      exec (.wrSbus v) s = .next { s with
        aux := a
        nv := { s.nv with clockPrevious := clockLine s v, pendingTransfer := s.nv.pendingTransfer || nvEdge s v }
        cells := m
        store := store
        outputs := s.outputs ++ events }

/-- WR_SBUS in ERASE and in READ: the edge stage, then the level action on every write (R103, R123, R130, R131, R224; the
spec's D3, log 3). -/
def Obligations.WrSbusInEraseAndRead : Prop :=
  ∀ (v : Nibble) (s : State),
    (s.nv.mode = 5 → ∃ a m, ReceiverAfter s v a ∧ Erased s m ∧
      exec (.wrSbus v) s = .next { s with
        aux := a
        nv := { s.nv with clockPrevious := clockLine s v, pendingTransfer := s.nv.pendingTransfer || nvEdge s v }
        cells := m }) ∧
    (s.nv.mode = 6 → ∃ a, ReceiverAfter s v a ∧
      exec (.wrSbus v) s = .next { s with
        aux := a
        nv := { s.nv with
          clockPrevious := clockLine s v
          pendingTransfer := s.nv.pendingTransfer || nvEdge s v
          dataRegister := s.cells.read s.nv.address.toNat } })

/-- RD_SBUS with a transfer pending in mode 1: the low bit of the data register goes out in bit NV_DOUT_BIT, the register
shifts right with a zero at the top, the flag is cleared; the other response bits are the draw (R104, R134; the spec's D4,
D26, D28, log 4, 25, 26). -/
def Obligations.RdSbusMovesOneBitOut : Prop :=
  ∀ (v : Nibble) (s : State), s.nv.pendingTransfer = true → s.nv.mode = 1 →
    ∃ (r : Nibble) (d : Word),
      (∀ k, k < 4 → r.getLsbD k =
        if k = s.cfg.nvDoutBit.val then s.nv.dataRegister.getLsbD 0 else s.env.extIn.getLsbD k) ∧
      d.getLsbD 15 = false ∧ (∀ k, k < 15 → d.getLsbD k = s.nv.dataRegister.getLsbD (k + 1)) ∧
      exec (.rdSbus v) s = .next { s with
        nv := { s.nv with dataRegister := d, pendingTransfer := false }
        outputs := s.outputs ++ [.readResponse r] }

/-- RD_SBUS with nothing pending or in another mode: the output bit is the neutral 0 and no state changes (R104, R134,
R193; the spec's D4, D26, log 4, 25). -/
def Obligations.RdSbusNeutralWhenNothingPending : Prop :=
  ∀ (v : Nibble) (s : State), s.nv.pendingTransfer = false ∨ s.nv.mode ≠ 1 →
    ∃ r : Nibble,
      (∀ k, k < 4 → r.getLsbD k = if k = s.cfg.nvDoutBit.val then false else s.env.extIn.getLsbD k) ∧
      exec (.rdSbus v) s = .next { s with outputs := s.outputs ++ [.readResponse r] }

/-- A read of another port answers the draw and changes nothing; a write to an unassigned selector changes nothing at all
(R105, R106; the spec's D5, D6, D26, log 5, 6, 25). -/
def Obligations.OtherPortsHaveNoEffect : Prop :=
  ∀ (p v : Nibble) (s : State),
    exec (.rdIn p v) s = .next { s with outputs := s.outputs ++ [.readResponse s.env.extIn] } ∧
      exec (.wrNone p v) s = .next s

/-- The reserved kind is refused by name and has no successor (R107; the spec's D20, log 20). -/
def Obligations.ReservedKindRefused : Prop :=
  ∀ (p v : Nibble) (s : State), exec (.invalid p v) s = .refused .reservedKind

/-! ## The auxiliary receiver -/

/-- DRAIN with the strobe flag set delivers the accumulator and resets flag and accumulator, not the previous clock; with
the flag clear it does nothing (R151; that it is a transaction is the spec's D14, log 14). -/
def Obligations.DrainDeliversStrobedFrame : Prop :=
  ∀ (p v : Nibble) (s : State),
    (s.aux.strobed = true →
      exec (.drain p v) s = .next { s with
        aux := { s.aux with strobed := false, accumulator := 0 }
        outputs := s.outputs ++ [.auxFrame s.aux.accumulator] }) ∧
    (s.aux.strobed = false → exec (.drain p v) s = .next s)

/-- After any number of clock pulses the accumulator holds the bits as a big-endian number in arrival order behind what
it held before, the earlier bits lost past bit 31, in every NVRAM mode (R152, R153; what a pulse is is the spec's D22,
log 21; the lines' bits are D3, log 3). -/
def Obligations.AccumulatorIsBigEndianInArrivalOrder : Prop :=
  ∀ (bits : List Bit) (s : State), s.cfg.busBitsWf = true →
    ∃ t, execList (bits.flatMap (pulseInstrs s.cfg)) s = .next t ∧
      t.aux.accumulator.toNat = bits.foldl (fun n b => 2 * n + b.toNat) s.aux.accumulator.toNat % 2 ^ 32

/-! ## Serial order of the NVRAM controller -/

/-- In WRITE_TO_REGISTER any number of pulses shifts the bits in most significant first and the register holds the last
sixteen; a transfer pending at the start takes the first pulse's bit once more, in its first write (R54, R127 (b), (c),
R136, R220; what a pulse is is the spec's D22, log 21; the lines' bits are D3, log 3). -/
def Obligations.ShiftInIsMostSignificantFirst : Prop :=
  ∀ (bits : List Bit) (s : State), s.cfg.busBitsWf = true → s.nv.mode = 2 →
    ∃ t, execList (bits.flatMap (pulseInstrs s.cfg)) s = .next t ∧
      t.nv.pendingTransfer = (s.nv.pendingTransfer && bits.isEmpty) ∧
      t.nv.dataRegister.toNat =
        (if s.nv.pendingTransfer then bits.take 1 ++ bits else bits).foldl (fun n b => 2 * n + b.toNat)
          s.nv.dataRegister.toNat % 2 ^ 16

/-- In READ_TO_OUTPUT, n times CLOCK_OUT answers bits 0, 1, .., n-1 of the data register in this order and shifts it
right by n (R54, R126, R134, R223; what CLOCK_OUT is is the spec's D22, log 21; the bus bits, the read port and bit, the
empty write arm, the draw and the shift are D3, D4, D23, D26, D28, log 3, 4, 23, 25, 26). -/
def Obligations.ShiftOutIsLeastSignificantFirst : Prop :=
  ∀ (n : Nat) (s : State), s.cfg.busBitsWf = true → s.nv.mode = 1 →
    ∃ t, execList ((List.range n).flatMap (fun _ => clockOutInstrs s.cfg)) s = .next t ∧
      t.nv.dataRegister = s.nv.dataRegister >>> n ∧
      t.outputs = s.outputs ++ (List.range n).map (fun k =>
        Event.readResponse (assembleResponse s.cfg s.env.extIn (BitVec.ofBool (s.nv.dataRegister.getLsbD k))))

/-! ## The persistent store -/

/-- A word stored by WRITE_TO_ADDRESS whose save succeeds is back after a power cycle, and READ at its address loads it,
bit-reversed against the data register it came from (R185, which the spec derives from R128, R131, R180, R181). -/
def Obligations.SavedCellSurvivesPowerCycle : Prop :=
  ∀ s : State, s.env.saveOutcome = .ok →
    ∃ t u w, exec .writeToAddress s = .next t ∧ step { t with requests := [.powerOn false] } = .next u ∧
      exec .read { u with nv := { u.nv with address := s.nv.address } } = .next w ∧
      (∀ a, u.cells.read a = t.cells.read a) ∧
      ∀ k, k < 16 → w.nv.dataRegister.getLsbD (15 - k) = s.nv.dataRegister.getLsbD k

/-- The blob is 32 bytes, cell i at offsets 2i and 2i + 1, low byte first or high byte first as the open parameter says
(R56; the spec's D12, log 12). -/
def Obligations.BlobHoldsCellsInAscendingOrder : Prop :=
  ∀ (m : Memory) (o : ByteOrder), (blobBytes o m).length = 32 ∧
    ∀ i, i < 16 →
      (blobBytes .little m)[2 * i]? = some ((m.read i).extractLsb' 0 8) ∧
      (blobBytes .little m)[2 * i + 1]? = some ((m.read i).extractLsb' 8 8) ∧
      (blobBytes .big m)[2 * i]? = some ((m.read i).extractLsb' 8 8) ∧
      (blobBytes .big m)[2 * i + 1]? = some ((m.read i).extractLsb' 0 8)

/-- The cells in a blob are those it was made from, whatever follows its 32 bytes, in either byte order; a shorter blob
holds none (R56, R180; the spec's D11, D12, log 11, 12). -/
def Obligations.BlobRoundTripIgnoresExcess : Prop :=
  ∀ (o : ByteOrder) (m : Memory) (excess short : List Byte),
    (m.wf = true → cellsOfBlob o (blobBytes o m ++ excess) = some m) ∧
      (short.length < 32 → cellsOfBlob o short = none)

/-! ## Arithmetic of the builder and of the store -/

/-- `rev16` turns a word end for end, is its own inverse, and has the values R135 prints. -/
def Obligations.Rev16TurnsWordEndForEnd : Prop :=
  (∀ (v : Word) (i : Nat), i < 16 → (rev16 v).getLsbD (15 - i) = v.getLsbD i) ∧ (∀ v : Word, rev16 (rev16 v) = v) ∧
    rev16 0x000A = 0x5000 ∧ rev16 0x0001 = 0x8000 ∧ rev16 0xFFFF = 0xFFFF ∧ rev16 0x1234 = 0x2C48

/-- `ins4` is R160's formula: it replaces the four bits at its shift and keeps every other. -/
def Obligations.Ins4ReplacesFourBits : Prop :=
  ∀ (r : Word) (s : Nat) (v : Nibble), s ≤ 12 →
    ins4 r s v = (r &&& ~~~ ((0xF : Word) <<< s)) ||| (v.setWidth 16 <<< s) ∧
    ∀ k, k < 16 → (ins4 r s v).getLsbD k = if s ≤ k ∧ k < s + 4 then v.getLsbD (k - s) else r.getLsbD k

/-! ## The display register builder -/

/-- The three plate ports replace bits 3:0, 7:4 and 11:8 of `plate` by the written nibble, keep every other bit and
`grid`, and notify the composer with the new pair (R161, R162, R163); their words are those of the default map (the spec's
D1, D2, log 1, 2). -/
def Obligations.PlatePortsReplaceTheirNibble : Prop :=
  ∀ (v : Nibble) (s : State),
    (decode Config.defaults (.transaction (0x020 ||| v.setWidth 10)) = .wrPlate0 v ∧
      decode Config.defaults (.transaction (0x030 ||| v.setWidth 10)) = .wrPlate1 v ∧
      decode Config.defaults (.transaction (0x040 ||| v.setWidth 10)) = .wrPlate2 v) ∧
    (∃ p : Word, (∀ k, k < 16 → p.getLsbD k = if k < 4 then v.getLsbD k else s.plate.getLsbD k) ∧
      exec (.wrPlate0 v) s = .next { s with
        plate := p, outputs := s.outputs ++ [.displayNotify p s.grid 13 6] }) ∧
    (∃ p : Word,
      (∀ k, k < 16 → p.getLsbD k = if 4 ≤ k ∧ k < 8 then v.getLsbD (k - 4) else s.plate.getLsbD k) ∧
      exec (.wrPlate1 v) s = .next { s with
        plate := p, outputs := s.outputs ++ [.displayNotify p s.grid 13 6] }) ∧
    (∃ p : Word,
      (∀ k, k < 16 → p.getLsbD k = if 8 ≤ k ∧ k < 12 then v.getLsbD (k - 8) else s.plate.getLsbD k) ∧
      exec (.wrPlate2 v) s = .next { s with
        plate := p, outputs := s.outputs ++ [.displayNotify p s.grid 13 6] })

/-- The combined port puts its low three bits into `plate[10:8]` and its bit 3 into `grid[4]`, keeps every other bit,
`plate[11]` among them, and notifies once with both new registers (R164); its word is that of the default map (the spec's
D1, D2, log 1, 2). -/
def Obligations.PlgrWritesThreePlateBitsAndOneGridBit : Prop :=
  ∀ (v : Nibble) (s : State), ∃ p g : Word,
    decode Config.defaults (.transaction (0x050 ||| v.setWidth 10)) = .wrPlgr v ∧
    (∀ k, k < 16 → p.getLsbD k = if 8 ≤ k ∧ k < 11 then v.getLsbD (k - 8) else s.plate.getLsbD k) ∧
    (∀ k, k < 16 → g.getLsbD k = if k = 4 then v.getLsbD 3 else s.grid.getLsbD k) ∧
    exec (.wrPlgr v) s = .next { s with plate := p, grid := g, outputs := s.outputs ++ [.displayNotify p g 13 6] }

/-- The grid port with a value other than 12 writes `grid[3:0]`, sets `grid[5]`, keeps every other bit and `plate`, and
notifies the composer (R165); its word is that of the default map (the spec's D1, D2, log 1, 2). The value 12 is
GridSentinelSetsBit5ClearsBits8To6. -/
def Obligations.GridPortWritesNibbleAndSetsBit5 : Prop :=
  ∀ (v : Nibble) (s : State), v ≠ 12 → ∃ g : Word,
    decode Config.defaults (.transaction (0x060 ||| v.setWidth 10)) = .wrGrid v ∧
    (∀ k, k < 16 → g.getLsbD k = if k < 4 then v.getLsbD k else if k = 5 then true else s.grid.getLsbD k) ∧
    exec (.wrGrid v) s = .next { s with grid := g, outputs := s.outputs ++ [.displayNotify s.plate g 13 6] }

/-- The sentinel 12 sets `grid[5]`, clears `grid[8:6]`, keeps every other bit and `plate`, and notifies the composer
(R166; the arithmetic is the spec's D19, log 19). -/
def Obligations.GridSentinelSetsBit5ClearsBits8To6 : Prop :=
  ∀ s : State, ∃ g : Word,
    (∀ k, k < 16 → g.getLsbD k = if k = 5 then true else if 6 ≤ k ∧ k < 9 then false else s.grid.getLsbD k) ∧
    exec .wrGridS12 s = .next { s with grid := g, outputs := s.outputs ++ [.displayNotify s.plate g 13 6] }

/-- Where `grid[8:6]` is clear, the other reading of the sentinel write, a plain or with bit 5, "gives the same result
whenever `grid[8:6]` = 0" (R166; the spec's D19, log 19). -/
def Obligations.SentinelReadingsAgreeWhereBits8To6Clear : Prop :=
  ∀ s : State, s.grid.extractLsb' 6 3 = 0 →
    exec .wrGridS12 s = .next { s with
      grid := s.grid ||| 0x0020, outputs := s.outputs ++ [.displayNotify s.plate (s.grid ||| 0x0020) 13 6] }
end

