-- ==== Sys2Proof/Laws/Operands.lean ====
section
/-! SUPPORT. What the operand forms and the flag computations give, bit by bit (R75, R77, R79, R101, R127, R135, R150,
R160). -/

namespace Sys2Proof.Machine

open Sys2Proof

/-- `rising(p, c)` is true exactly when p = 0 and c = 1 (R101). -/
theorem rising_iff (p c : Bit) : rising p c = true ↔ p = 0 ∧ c = 1 := by
  simp [rising]

/-- A bit vector of one bit is its bit. -/
theorem ofBool_eq_one (b : Bool) : BitVec.ofBool b = 1 ↔ b = true := by cases b <;> decide

/-- The bit that `nibbleBit` takes. -/
theorem nibbleBit_getLsbD (v : Nibble) (i : Fin 4) : (nibbleBit v i).getLsbD 0 = v.getLsbD i.val := by
  simp [nibbleBit]

/-- Lines placed at three different bits of a nibble are read back from it (R75). -/
theorem nibbleBit_of_bitAt : ∀ (i j k : Fin 4) (a b c : Bit), i ≠ j → i ≠ k → j ≠ k →
    nibbleBit (bitAt c k ||| bitAt b j ||| bitAt a i) i = a ∧ nibbleBit (bitAt c k ||| bitAt b j ||| bitAt a i) j = b ∧
      nibbleBit (bitAt c k ||| bitAt b j ||| bitAt a i) k = c := by
  decide +kernel

/-- A P_SBUS nibble built from its lines carries them, whatever bits the parameters give them (R75, R84). -/
theorem sbusNibble_lines (c : Config) (strobe data clock : Bit) (h : c.busBitsWf = true) :
    clockField c (sbusNibble c strobe data clock) = clock ∧ dataField c (sbusNibble c strobe data clock) = data ∧
      strobeField c (sbusNibble c strobe data clock) = strobe := by
  simp only [Config.busBitsWf, List.nodup_cons, List.mem_cons, not_or, decide_eq_true_eq, List.not_mem_nil,
    or_false] at h
  exact nibbleBit_of_bitAt _ _ _ _ _ _ h.1.1 h.1.2 h.2.1

/-- The response's output bit is NVREAD's bit, its others the draw (R79). -/
theorem assembleResponse_getLsbD (c : Config) (x : Nibble) (b : Bit) (k : Nat) (hk : k < 4) :
    (assembleResponse c x b).getLsbD k = if k = c.nvDoutBit.val then b.getLsbD 0 else x.getLsbD k := by
  have key : ∀ (x : Nibble) (b : Bit) (d k : Fin 4),
      ((x &&& ~~~ bitAt 1 d) ||| bitAt b d).getLsbD k.val = if k.val = d.val then b.getLsbD 0 else x.getLsbD k.val := by
    decide +kernel
  exact key x b c.nvDoutBit ⟨k, hk⟩

/-- Bit 15 - i of the reversal is bit i (R135). -/
theorem rev16_getLsbD (v : Word) (i : Nat) (h : i < 16) : (rev16 v).getLsbD (15 - i) = v.getLsbD i := by
  have h1 : 15 - (15 - i) = i := by omega
  have h2 : 15 - i < 16 := by omega
  rw [rev16, BitVec.getLsbD_reverse, BitVec.getMsbD]
  simp [h1, h2]

/-- The nibble insert, bit by bit (R160). -/
theorem ins4_getLsbD (r : Word) (s : Nat) (v : Nibble) (k : Nat) (hk : k < 16) :
    (ins4 r s v).getLsbD k = if s ≤ k ∧ k < s + 4 then v.getLsbD (k - s) else r.getLsbD k := by
  have hF : ∀ j, (0xF : Word).getLsbD j = decide (j < 4) := by
    intro j
    by_cases hj : j < 4
    · interval_cases j <;> rfl
    · by_cases h16 : j < 16
      · interval_cases j <;> simp_all
      · simp [BitVec.getLsbD_of_ge _ _ (not_lt.mp h16), hj]
  simp only [ins4, BitVec.getLsbD_or, BitVec.getLsbD_and, BitVec.getLsbD_not, BitVec.getLsbD_shiftLeft,
    BitVec.getLsbD_setWidth, hF, hk]
  by_cases h1 : k < s
  · simp [h1, not_le.mpr h1]
  · by_cases h2 : k < s + 4
    · have h3 : k - s < 4 := by omega
      have h4 : k - s < 16 := by omega
      simp [h1, h2, h3, h4, not_lt.mp h1]
    · have h3 : ¬ k - s < 4 := by omega
      simp [h1, h2, h3, BitVec.getLsbD_of_ge v (k - s) (not_lt.mp h3)]

/-- A bit shifted into a word: bit 0 is the bit, every other bit moves up (R127). -/
theorem shiftIn16_getLsbD (v : Word) (b : Bit) :
    (shiftIn16 v b).getLsbD 0 = b.getLsbD 0 ∧ ∀ k, k < 15 → (shiftIn16 v b).getLsbD (k + 1) = v.getLsbD k := by
  refine ⟨by simp [shiftIn16], fun k hk => ?_⟩
  have h1 : k + 1 < 16 := by omega
  simp [shiftIn16, h1, BitVec.getLsbD_eq_getElem (show k < 16 by omega)]

/-- A bit shifted into the accumulator (R150). -/
theorem shiftIn32_getLsbD (v : Frame) (b : Bit) :
    (shiftIn32 v b).getLsbD 0 = b.getLsbD 0 ∧ ∀ k, k < 31 → (shiftIn32 v b).getLsbD (k + 1) = v.getLsbD k := by
  refine ⟨by simp [shiftIn32], fun k hk => ?_⟩
  have h1 : k + 1 < 32 := by omega
  simp [shiftIn32, h1, BitVec.getLsbD_eq_getElem (show k < 32 by omega)]

/-- An even number or a bit is their sum. -/
theorem two_mul_or_bit (m b : Nat) (hb : b < 2) : 2 * m ||| b = 2 * m + b := by
  exact (Nat.two_pow_add_eq_or_of_lt (i := 1) (b := b) (by omega) m).symm

/-- As numbers: twice the word plus the bit, cut to the width (R136). -/
theorem shiftIn16_toNat (v : Word) (b : Bit) : (shiftIn16 v b).toNat = (2 * v.toNat + b.toNat) % 2 ^ 16 := by
  have hb := b.isLt
  have h : v.toNat <<< 1 % 2 ^ 16 = 2 * (v.toNat % 2 ^ 15) := by rw [Nat.shiftLeft_eq]; omega
  rw [shiftIn16, BitVec.toNat_or, BitVec.toNat_shiftLeft, h, BitVec.toNat_setWidth,
    Nat.mod_eq_of_lt (show b.toNat < 2 ^ 16 by omega), two_mul_or_bit _ _ (by omega)]
  omega

/-- As numbers: twice the accumulator plus the bit, cut to the width (R150). -/
theorem shiftIn32_toNat (v : Frame) (b : Bit) : (shiftIn32 v b).toNat = (2 * v.toNat + b.toNat) % 2 ^ 32 := by
  have hb := b.isLt
  have h : v.toNat <<< 1 % 2 ^ 32 = 2 * (v.toNat % 2 ^ 31) := by rw [Nat.shiftLeft_eq]; omega
  rw [shiftIn32, BitVec.toNat_or, BitVec.toNat_shiftLeft, h, BitVec.toNat_setWidth,
    Nat.mod_eq_of_lt (show b.toNat < 2 ^ 32 by omega), two_mul_or_bit _ _ (by omega)]
  omega

/-- The receiver on a rising edge (R150). -/
theorem auxNext_rising (st c d : Bit) (a : AuxReceiver) (h : rising a.clockPrevious c = true) :
    auxNext st c d a =
      { accumulator := shiftIn32 a.accumulator d, strobed := st == 1, clockPrevious := c } := by
  simp [auxNext, h]

/-- The receiver on any other sample (R150). -/
theorem auxNext_steady (st c d : Bit) (a : AuxReceiver) (h : rising a.clockPrevious c = false) :
    auxNext st c d a = { accumulator := a.accumulator, strobed := st == 1, clockPrevious := c } := by
  simp [auxNext, h]

end Sys2Proof.Machine
end

