-- ==== Sys2Proof/Laws/State.lean ====
section
/-! SUPPORT. One lemma for each field under each update of the state (Machine/Ops.lean), true by `rfl`. -/

namespace Sys2Proof.Machine

open Sys2Proof

section

variable (s : State) (n : Nvram)

@[simp] theorem State.setNv_cfg : (s.setNv n).cfg = s.cfg := rfl
@[simp] theorem State.setNv_nv : (s.setNv n).nv = n := rfl
@[simp] theorem State.setNv_cells : (s.setNv n).cells = s.cells := rfl
@[simp] theorem State.setNv_store : (s.setNv n).store = s.store := rfl
@[simp] theorem State.setNv_aux : (s.setNv n).aux = s.aux := rfl
@[simp] theorem State.setNv_plate : (s.setNv n).plate = s.plate := rfl
@[simp] theorem State.setNv_grid : (s.setNv n).grid = s.grid := rfl
@[simp] theorem State.setNv_requests : (s.setNv n).requests = s.requests := rfl
@[simp] theorem State.setNv_env : (s.setNv n).env = s.env := rfl
@[simp] theorem State.setNv_outputs : (s.setNv n).outputs = s.outputs := rfl

end

section

variable (s : State) (m : Memory)

@[simp] theorem State.setCells_cfg : (s.setCells m).cfg = s.cfg := rfl
@[simp] theorem State.setCells_nv : (s.setCells m).nv = s.nv := rfl
@[simp] theorem State.setCells_cells : (s.setCells m).cells = m := rfl
@[simp] theorem State.setCells_store : (s.setCells m).store = s.store := rfl
@[simp] theorem State.setCells_aux : (s.setCells m).aux = s.aux := rfl
@[simp] theorem State.setCells_plate : (s.setCells m).plate = s.plate := rfl
@[simp] theorem State.setCells_grid : (s.setCells m).grid = s.grid := rfl
@[simp] theorem State.setCells_requests : (s.setCells m).requests = s.requests := rfl
@[simp] theorem State.setCells_env : (s.setCells m).env = s.env := rfl
@[simp] theorem State.setCells_outputs : (s.setCells m).outputs = s.outputs := rfl

end

section

variable (s : State) (m : Option Memory)

@[simp] theorem State.setStore_cfg : (s.setStore m).cfg = s.cfg := rfl
@[simp] theorem State.setStore_nv : (s.setStore m).nv = s.nv := rfl
@[simp] theorem State.setStore_cells : (s.setStore m).cells = s.cells := rfl
@[simp] theorem State.setStore_store : (s.setStore m).store = m := rfl
@[simp] theorem State.setStore_aux : (s.setStore m).aux = s.aux := rfl
@[simp] theorem State.setStore_plate : (s.setStore m).plate = s.plate := rfl
@[simp] theorem State.setStore_grid : (s.setStore m).grid = s.grid := rfl
@[simp] theorem State.setStore_requests : (s.setStore m).requests = s.requests := rfl
@[simp] theorem State.setStore_env : (s.setStore m).env = s.env := rfl
@[simp] theorem State.setStore_outputs : (s.setStore m).outputs = s.outputs := rfl

end

section

variable (s : State) (a : AuxReceiver)

@[simp] theorem State.setAux_cfg : (s.setAux a).cfg = s.cfg := rfl
@[simp] theorem State.setAux_nv : (s.setAux a).nv = s.nv := rfl
@[simp] theorem State.setAux_cells : (s.setAux a).cells = s.cells := rfl
@[simp] theorem State.setAux_store : (s.setAux a).store = s.store := rfl
@[simp] theorem State.setAux_aux : (s.setAux a).aux = a := rfl
@[simp] theorem State.setAux_plate : (s.setAux a).plate = s.plate := rfl
@[simp] theorem State.setAux_grid : (s.setAux a).grid = s.grid := rfl
@[simp] theorem State.setAux_requests : (s.setAux a).requests = s.requests := rfl
@[simp] theorem State.setAux_env : (s.setAux a).env = s.env := rfl
@[simp] theorem State.setAux_outputs : (s.setAux a).outputs = s.outputs := rfl

end

section

variable (s : State) (p : Word)

@[simp] theorem State.setPlate_cfg : (s.setPlate p).cfg = s.cfg := rfl
@[simp] theorem State.setPlate_nv : (s.setPlate p).nv = s.nv := rfl
@[simp] theorem State.setPlate_cells : (s.setPlate p).cells = s.cells := rfl
@[simp] theorem State.setPlate_store : (s.setPlate p).store = s.store := rfl
@[simp] theorem State.setPlate_aux : (s.setPlate p).aux = s.aux := rfl
@[simp] theorem State.setPlate_plate : (s.setPlate p).plate = p := rfl
@[simp] theorem State.setPlate_grid : (s.setPlate p).grid = s.grid := rfl
@[simp] theorem State.setPlate_requests : (s.setPlate p).requests = s.requests := rfl
@[simp] theorem State.setPlate_env : (s.setPlate p).env = s.env := rfl
@[simp] theorem State.setPlate_outputs : (s.setPlate p).outputs = s.outputs := rfl

end

section

variable (s : State) (g : Word)

@[simp] theorem State.setGrid_cfg : (s.setGrid g).cfg = s.cfg := rfl
@[simp] theorem State.setGrid_nv : (s.setGrid g).nv = s.nv := rfl
@[simp] theorem State.setGrid_cells : (s.setGrid g).cells = s.cells := rfl
@[simp] theorem State.setGrid_store : (s.setGrid g).store = s.store := rfl
@[simp] theorem State.setGrid_aux : (s.setGrid g).aux = s.aux := rfl
@[simp] theorem State.setGrid_plate : (s.setGrid g).plate = s.plate := rfl
@[simp] theorem State.setGrid_grid : (s.setGrid g).grid = g := rfl
@[simp] theorem State.setGrid_requests : (s.setGrid g).requests = s.requests := rfl
@[simp] theorem State.setGrid_env : (s.setGrid g).env = s.env := rfl
@[simp] theorem State.setGrid_outputs : (s.setGrid g).outputs = s.outputs := rfl

end

section

variable (s : State) (rs : List Request)

@[simp] theorem State.setRequests_cfg : (s.setRequests rs).cfg = s.cfg := rfl
@[simp] theorem State.setRequests_nv : (s.setRequests rs).nv = s.nv := rfl
@[simp] theorem State.setRequests_cells : (s.setRequests rs).cells = s.cells := rfl
@[simp] theorem State.setRequests_store : (s.setRequests rs).store = s.store := rfl
@[simp] theorem State.setRequests_aux : (s.setRequests rs).aux = s.aux := rfl
@[simp] theorem State.setRequests_plate : (s.setRequests rs).plate = s.plate := rfl
@[simp] theorem State.setRequests_grid : (s.setRequests rs).grid = s.grid := rfl
@[simp] theorem State.setRequests_requests : (s.setRequests rs).requests = rs := rfl
@[simp] theorem State.setRequests_env : (s.setRequests rs).env = s.env := rfl
@[simp] theorem State.setRequests_outputs : (s.setRequests rs).outputs = s.outputs := rfl

end

section

variable (s : State) (e : Env)

@[simp] theorem State.setEnv_cfg : (s.setEnv e).cfg = s.cfg := rfl
@[simp] theorem State.setEnv_nv : (s.setEnv e).nv = s.nv := rfl
@[simp] theorem State.setEnv_cells : (s.setEnv e).cells = s.cells := rfl
@[simp] theorem State.setEnv_store : (s.setEnv e).store = s.store := rfl
@[simp] theorem State.setEnv_aux : (s.setEnv e).aux = s.aux := rfl
@[simp] theorem State.setEnv_plate : (s.setEnv e).plate = s.plate := rfl
@[simp] theorem State.setEnv_grid : (s.setEnv e).grid = s.grid := rfl
@[simp] theorem State.setEnv_requests : (s.setEnv e).requests = s.requests := rfl
@[simp] theorem State.setEnv_env : (s.setEnv e).env = e := rfl
@[simp] theorem State.setEnv_outputs : (s.setEnv e).outputs = s.outputs := rfl

end

section

variable (s : State) (e : Event)

@[simp] theorem State.emit_cfg : (s.emit e).cfg = s.cfg := rfl
@[simp] theorem State.emit_nv : (s.emit e).nv = s.nv := rfl
@[simp] theorem State.emit_cells : (s.emit e).cells = s.cells := rfl
@[simp] theorem State.emit_store : (s.emit e).store = s.store := rfl
@[simp] theorem State.emit_aux : (s.emit e).aux = s.aux := rfl
@[simp] theorem State.emit_plate : (s.emit e).plate = s.plate := rfl
@[simp] theorem State.emit_grid : (s.emit e).grid = s.grid := rfl
@[simp] theorem State.emit_requests : (s.emit e).requests = s.requests := rfl
@[simp] theorem State.emit_env : (s.emit e).env = s.env := rfl
@[simp] theorem State.emit_outputs : (s.emit e).outputs = s.outputs ++ [e] := rfl

end

end Sys2Proof.Machine
end

