-- ==== Sys2Proof/Laws/Display.lean ====
section
/-! SUPPORT. What the display register builder does to each bit (R164 to R166). -/

namespace Sys2Proof.Machine

open Sys2Proof

/-- A single bit of a word. -/
theorem oneBit_getLsbD (n k : Nat) (hn : n < 16) : ((1 : Word) <<< n).getLsbD k = decide (k = n) := by
  have key : ∀ n k : Fin 16, ((1 : Word) <<< n.val).getLsbD k.val = decide (k.val = n.val) := by decide +kernel
  by_cases hk : k < 16
  · exact key ⟨n, hn⟩ ⟨k, hk⟩
  · rw [BitVec.getLsbD_of_ge _ _ (not_lt.mp hk)]
    exact (decide_eq_false (by omega)).symm

/-- The three plate bits of P_PLGR. -/
theorem plgrMask_getLsbD (k : Nat) : ((0x7 : Word) <<< 8).getLsbD k = decide (8 ≤ k ∧ k < 11) := by
  have key : ∀ k : Fin 16, ((0x7 : Word) <<< 8).getLsbD k.val = decide (8 ≤ k.val ∧ k.val < 11) := by decide +kernel
  by_cases hk : k < 16
  · exact key ⟨k, hk⟩
  · rw [BitVec.getLsbD_of_ge _ _ (not_lt.mp hk)]
    exact (decide_eq_false (by omega)).symm

/-- P_PLGR on `plate`, bit by bit (R164). -/
theorem plgrPlate_getLsbD (p : Word) (v : Nibble) (k : Nat) (hk : k < 16) :
    (plgrPlate p v).getLsbD k = if 8 ≤ k ∧ k < 11 then v.getLsbD (k - 8) else p.getLsbD k := by
  simp only [plgrPlate, BitVec.getLsbD_or, BitVec.getLsbD_and, BitVec.getLsbD_not, plgrMask_getLsbD]
  rw [BitVec.getLsbD_shiftLeft, BitVec.getLsbD_setWidth, plgrPlateField, BitVec.getLsbD_extractLsb']
  simp only [hk]
  by_cases h : 8 ≤ k <;> by_cases h2 : k < 11
  · have : k - 8 < 16 := by omega
    have : k - 8 < 3 := by omega
    have : ¬ k < 8 := by omega
    simp [*]
  · have : ¬ k - 8 < 3 := by omega
    simp [h2, this]
  · have : k < 8 := by omega
    simp [h, this]
  · omega

/-- P_PLGR on `grid`, bit by bit (R164). -/
theorem plgrGrid_getLsbD (g : Word) (v : Nibble) (k : Nat) (hk : k < 16) :
    (plgrGrid g v).getLsbD k = if k = 4 then v.getLsbD 3 else g.getLsbD k := by
  simp only [plgrGrid, BitVec.getLsbD_or, BitVec.getLsbD_and, BitVec.getLsbD_not, oneBit_getLsbD 4 _ (by omega),
    BitVec.getLsbD_shiftLeft, BitVec.getLsbD_setWidth, plgrGridField, BitVec.getLsbD_extractLsb', hk]
  by_cases h : k = 4
  · subst h; simp
  · by_cases h2 : k < 4
    · simp [h, h2]
    · have : ¬ k - 4 < 1 := by omega
      have : k - 4 ≠ 0 := by omega
      simp [*]

/-- The only set bit of the remapped sentinel (R77). -/
theorem nibbleOne_getLsbD (j : Nat) : (1 : Nibble).getLsbD j = decide (j = 0) := by
  by_cases hj : j < 4
  · interval_cases j <;> rfl
  · rw [BitVec.getLsbD_of_ge _ _ (not_lt.mp hj)]
    exact (decide_eq_false (by omega)).symm

/-- A placed grid value, bit by bit (R165, R166). -/
theorem placeGrid_getLsbD (v : Nibble) (s : State) (k : Nat) (hk : k < 16) :
    (placeGrid v s).grid.getLsbD k =
      if v = 12 then (if k = 5 then true else if 6 ≤ k ∧ k < 9 then false else s.grid.getLsbD k)
      else (if k < 4 then v.getLsbD k else s.grid.getLsbD k) := by
  simp only [placeGrid, State.setGrid, gridRemap]
  by_cases hv : v = 12
  · simp only [hv, if_true]
    rw [ins4_getLsbD _ _ _ _ hk, nibbleOne_getLsbD]
    by_cases h5 : k = 5
    · simp [h5]
    · by_cases h8 : 6 ≤ k ∧ k < 9
      · have h1 : 5 ≤ k ∧ k < 5 + 4 := by omega
        have h2 : k - 5 ≠ 0 := by omega
        simp only [h1, h5, h8, h2, and_self, if_true, if_false, decide_false]
      · have h1 : ¬ (5 ≤ k ∧ k < 5 + 4) := by omega
        simp only [h1, h5, h8, if_false]
  · simp only [hv, if_false]
    rw [ins4_getLsbD _ _ _ _ hk]
    simp

/-- The forced bit, bit by bit (R165). -/
theorem forceGridBit5_getLsbD (s : State) (k : Nat) :
    (forceGridBit5 s).grid.getLsbD k = if k = 5 then true else s.grid.getLsbD k := by
  simp only [forceGridBit5, State.setGrid, BitVec.getLsbD_or, oneBit_getLsbD 5 k (by omega)]
  split_ifs with h <;> simp [h]

/-- A field of a word is zero exactly when each of its bits is. -/
theorem field_eq_zero_iff (w : Word) (start len : Nat) :
    w.extractLsb' start len = 0 ↔ ∀ k, start ≤ k → k < start + len → w.getLsbD k = false := by
  constructor
  · intro h k h1 h2
    have := congrArg (fun x : BitVec len => x.getLsbD (k - start)) h
    have h3 : k - start < len := by omega
    have h4 : start + (k - start) = k := by omega
    simpa [h3, h4] using this
  · intro h
    apply BitVec.eq_of_getLsbD_eq
    intro i hi
    simp [hi]
    exact h _ (by omega) (by omega)

end Sys2Proof.Machine
end

