-- ==== Sys2Proof/Laws/Encoding.lean ====
section
/-! SUPPORT. The laws of the word's fields (R71) and of the port map (R73). -/

namespace Sys2Proof

theorem transactionWord_fields :
    ∀ (k : BitVec 2) (p v : Nibble), kindField (transactionWord k p v) = k ∧ portField (transactionWord k p v) = p ∧
      valueField (transactionWord k p v) = v := by
  decide +kernel

@[simp] theorem kindField_transactionWord (k : BitVec 2) (p v : Nibble) : kindField (transactionWord k p v) = k :=
  (transactionWord_fields k p v).1

@[simp] theorem portField_transactionWord (k : BitVec 2) (p v : Nibble) : portField (transactionWord k p v) = p :=
  (transactionWord_fields k p v).2.1

@[simp] theorem valueField_transactionWord (k : BitVec 2) (p v : Nibble) : valueField (transactionWord k p v) = v :=
  (transactionWord_fields k p v).2.2

/-- A word is made of its fields. -/
@[simp] theorem transactionWord_of_fields :
    ∀ w : BitVec 10, transactionWord (kindField w) (portField w) (valueField w) = w := by
  decide +kernel

/-- A kind is one of four. -/
theorem kind_cases (k : BitVec 2) : k = 0 ∨ k = 1 ∨ k = 2 ∨ k = 3 := by
  revert k; decide

/-- Under an injective map each port's selector finds that port. -/
theorem find_selector (m : PortMap) (hm : m.wf = true) (p : Port) : m.find (m.selector p) = some p := by
  simp only [PortMap.wf, PortMap.selectors, decide_eq_true_eq, List.nodup_cons, List.mem_cons, List.not_mem_nil, not_or,
    or_false, List.nodup_nil, not_false_eq_true, and_true] at hm
  obtain ⟨⟨h1, h2, h3, h4, h5, h6, h7⟩, ⟨g2, g3, g4, g5, g6, g7⟩, ⟨f3, f4, f5, f6, f7⟩, ⟨e4, e5, e6, e7⟩, ⟨d5, d6, d7⟩,
    ⟨c6, c7⟩, b7⟩ := hm
  cases p <;> simp [PortMap.find, PortMap.selector, *, eq_comm]

/-- The unassigned selectors are those outside the map. -/
theorem find_eq_none (m : PortMap) (p : Nibble) : m.find p = none ↔ p ∉ m.selectors := by
  simp only [PortMap.find, PortMap.selectors, List.mem_cons, List.not_mem_nil, or_false]
  split_ifs <;> simp_all

/-- A selector that finds a port is that port's. -/
theorem selector_of_find (m : PortMap) (p : Nibble) (q : Port) (h : m.find p = some q) : m.selector q = p := by
  unfold PortMap.find at h
  split_ifs at h <;> cases h <;> simp_all [PortMap.selector]

/-- What a latch content decodes to: one of the eight named modes, or an inert one. -/
theorem decodeMode_cases (w : Nibble) :
    (w = 0 ∧ decodeMode w = .standby) ∨ (w = 1 ∧ decodeMode w = .readToOutput) ∨
    (w = 2 ∧ decodeMode w = .writeToRegister) ∨ (w = 3 ∧ decodeMode w = .writeToAddress) ∨
    (w = 4 ∧ decodeMode w = .stationMemory) ∨ (w = 5 ∧ decodeMode w = .erase) ∨ (w = 6 ∧ decodeMode w = .read) ∨
    (w = 7 ∧ decodeMode w = .lastChannelMemory) ∨ (8 ≤ w.toNat ∧ ∃ low, decodeMode w = .inert low) := by
  revert w; decide

/-- No write decodes to the reserved kind. -/
theorem decodeWrite_ne_invalid (m : PortMap) (p v a b : Nibble) : decodeWrite m p v ≠ .invalid a b := by
  unfold decodeWrite; split <;> (try split_ifs) <;> simp

/-- Exactly the words of kind 3 decode to INVALID (R81, R107). -/
theorem decodeTransaction_invalid_iff (c : Config) (w : BitVec 10) :
    (∃ a b, decodeTransaction c w = .invalid a b) ↔ kindField w = 3 := by
  constructor
  · rintro ⟨a, b, h⟩
    by_contra hk
    unfold decodeTransaction at h
    rw [if_neg hk] at h
    split_ifs at h
    exact decodeWrite_ne_invalid _ _ _ _ _ h
  · intro h; simp [decodeTransaction, h]

/-- No latch content decodes to a transaction of the reserved kind. -/
theorem decodeMode_ne_invalid (w a b : Nibble) : decodeMode w ≠ .invalid a b := by
  unfold decodeMode; split_ifs <;> simp

end Sys2Proof
end

