-- ==== Sys2Proof/Laws/Listing.lean ====
section
/-! SUPPORT. Operations one after another (R63). -/

namespace Sys2Proof.Machine

open Sys2Proof

/-- A list of operations behind another runs in the state the first leaves. -/
theorem execList_append (a b : List Instr) (s t : State) (h : execList a s = .next t) :
    execList (a ++ b) s = execList b t := by
  induction a generalizing s with
  | nil => cases h; rfl
  | cons i rest ih =>
    simp only [execList, List.cons_append] at h ⊢
    rcases he : exec i s with u | u | u <;> rw [he] at h <;> first | exact ih u h | cases h

end Sys2Proof.Machine
end

