-- ==== Sys2Proof/Laws/Memory.lean ====
section
/-! SUPPORT. The laws of the cell space: a read after a write, the canonical form kept by every operation, equal cells
are equal data, and images. -/

namespace Sys2Proof.Machine

open Sys2Proof

namespace Memory

@[simp] theorem read_nil (a : Nat) : Memory.read [] a = 0 := rfl

@[simp] theorem read_cons (k : Nat) (v : Word) (rest : Memory) (a : Nat) :
    Memory.read ((k, v) :: rest) a = if k = a then v else Memory.read rest a := rfl

/-- Writing zero takes the entry out. -/
theorem write_zero (m : Memory) (a : Nat) : m.write a 0 = m.remove a := if_pos rfl

/-- Writing any other word puts the entry in. -/
theorem write_of_ne_zero (m : Memory) (a : Nat) (v : Word) (hv : v ≠ 0) :
    m.write a v = (m.remove a).insert a v := if_neg hv

theorem read_insert_same (m : Memory) (a : Nat) (v : Word) (h : ∀ p ∈ m, p.1 ≠ a) :
    Memory.read (Memory.insert a v m) a = v := by
  induction m with
  | nil => simp [Memory.insert]
  | cons p rest ih =>
    obtain ⟨k, w⟩ := p
    have hk : k ≠ a := h (k, w) (by simp)
    have hr : ∀ q ∈ rest, q.1 ≠ a := fun q hq => h q (by simp [hq])
    by_cases hlt : a < k <;> simp [Memory.insert, hlt, hk, ih hr]

theorem read_insert_other (m : Memory) (a b : Nat) (v : Word) (h : a ≠ b) :
    Memory.read (Memory.insert a v m) b = Memory.read m b := by
  induction m with
  | nil => simp [Memory.insert, h]
  | cons p rest ih =>
    obtain ⟨k, w⟩ := p
    by_cases hlt : a < k <;> simp [Memory.insert, hlt, h, ih]

theorem remove_avoids (m : Memory) (a : Nat) : ∀ p ∈ m.remove a, p.1 ≠ a := by
  intro p hp
  simpa [Memory.remove] using (List.mem_filter.mp hp).2

theorem read_of_avoids (m : Memory) (a : Nat) (h : ∀ p ∈ m, p.1 ≠ a) : Memory.read m a = 0 := by
  induction m with
  | nil => rfl
  | cons p rest ih =>
    have hp : p.1 ≠ a := h p (by simp)
    simp [Memory.read, hp, ih (fun q hq => h q (by simp [hq]))]

theorem read_remove_other (m : Memory) (a b : Nat) (h : a ≠ b) :
    Memory.read (m.remove a) b = Memory.read m b := by
  induction m with
  | nil => rfl
  | cons p rest ih =>
    obtain ⟨k, w⟩ := p
    simp only [Memory.remove] at ih
    by_cases hk : k = a
    · subst hk; simp [Memory.remove, Memory.read, h, ih]
    · simp [Memory.remove, Memory.read, hk, ih]

/-- A read after a write of the same cell gives the written word (R53). -/
@[simp] theorem read_write_same (m : Memory) (a : Nat) (v : Word) : (m.write a v).read a = v := by
  by_cases hv : v = 0
  · subst hv; rw [write_zero, read_of_avoids _ _ (remove_avoids m a)]
  · rw [write_of_ne_zero _ _ _ hv, read_insert_same _ _ _ (remove_avoids m a)]

/-- A write leaves every other cell alone (R53). -/
theorem read_write_other (m : Memory) (a b : Nat) (v : Word) (h : a ≠ b) : (m.write a v).read b = m.read b := by
  by_cases hv : v = 0
  · subst hv; rw [write_zero, read_remove_other _ _ _ h]
  · rw [write_of_ne_zero _ _ _ hv, read_insert_other _ _ _ _ h, read_remove_other _ _ _ h]

/-- Both laws of a write in one. -/
theorem read_write (m : Memory) (a b : Nat) (v : Word) :
    (m.write a v).read b = if a = b then v else m.read b := by
  by_cases h : a = b
  · subst h; simp
  · simp [h, read_write_other]

theorem wf_iff (m : Memory) :
    m.wf = true ↔ m.Pairwise (fun p q => p.1 < q.1) ∧ ∀ p ∈ m, p.1 < 16 ∧ p.2 ≠ 0 := by
  simp [Memory.wf]

@[simp] theorem wf_nil : Memory.wf [] = true := by decide

theorem mem_insert (m : Memory) (a : Nat) (v : Word) (p : Nat × Word) :
    p ∈ Memory.insert a v m ↔ p = (a, v) ∨ p ∈ m := by
  induction m with
  | nil => simp [Memory.insert]
  | cons q rest ih =>
    obtain ⟨k, w⟩ := q
    by_cases hlt : a < k
    · simp [Memory.insert, hlt]
    · simp only [Memory.insert, hlt, if_false, List.mem_cons, ih]
      tauto

theorem pairwise_insert (m : Memory) (a : Nat) (v : Word) (hs : m.Pairwise (fun p q => p.1 < q.1))
    (ha : ∀ p ∈ m, p.1 ≠ a) : (Memory.insert a v m).Pairwise (fun p q => p.1 < q.1) := by
  induction m with
  | nil => simp [Memory.insert]
  | cons q rest ih =>
    obtain ⟨k, w⟩ := q
    have hk : k ≠ a := ha (k, w) (by simp)
    obtain ⟨hhead, htail⟩ := List.pairwise_cons.mp hs
    by_cases hlt : a < k
    · simp only [Memory.insert, hlt, if_true]
      refine List.pairwise_cons.mpr ⟨fun p hp => ?_, hs⟩
      rcases List.mem_cons.mp hp with rfl | hp
      · exact hlt
      · exact lt_trans hlt (hhead p hp)
    · simp only [Memory.insert, hlt, if_false]
      refine List.pairwise_cons.mpr ⟨fun p hp => ?_, ih htail (fun q hq => ha q (by simp [hq]))⟩
      rcases (mem_insert rest a v p).mp hp with rfl | hp
      · exact lt_of_le_of_ne (not_lt.mp hlt) hk
      · exact hhead p hp

/-- A write keeps the canonical form. -/
theorem wf_write (m : Memory) (a : Nat) (v : Word) (ha : a < 16) (hm : m.wf = true) : (m.write a v).wf = true := by
  obtain ⟨hs, hb⟩ := (wf_iff m).mp hm
  have hs' : (m.remove a).Pairwise (fun p q => p.1 < q.1) := hs.filter _
  have hb' : ∀ p ∈ m.remove a, p.1 < 16 ∧ p.2 ≠ 0 := fun p hp => hb p (List.mem_filter.mp hp).1
  by_cases hv : v = 0
  · subst hv; rw [write_zero]; exact (wf_iff _).mpr ⟨hs', hb'⟩
  · rw [write_of_ne_zero _ _ _ hv]
    refine (wf_iff _).mpr ⟨pairwise_insert _ _ _ hs' (remove_avoids m a), fun p hp => ?_⟩
    rcases (mem_insert _ a v p).mp hp with rfl | hp
    · exact ⟨ha, hv⟩
    · exact hb' p hp

theorem read_of_lt (m : Memory) (a : Nat) (h : ∀ p ∈ m, a < p.1) : m.read a = 0 :=
  read_of_avoids m a (fun p hp => Nat.ne_of_gt (h p hp))

/-- Equal cells are equal data: two canonical memories that read alike are the same list. -/
theorem eq_of_read (m n : Memory) (hm : m.wf = true) (hn : n.wf = true) (h : ∀ a, m.read a = n.read a) : m = n := by
  obtain ⟨hms, hmb⟩ := (wf_iff m).mp hm
  obtain ⟨hns, hnb⟩ := (wf_iff n).mp hn
  clear hm hn
  induction m generalizing n with
  | nil =>
    cases n with
    | nil => rfl
    | cons q rest =>
      obtain ⟨l, w⟩ := q
      have := h l
      exact absurd (by simpa using this.symm) (hnb (l, w) (by simp)).2
  | cons p rest ih =>
    cases n with
    | nil =>
      obtain ⟨k, v⟩ := p
      have := h k
      exact absurd (by simpa using this) (hmb (k, v) (by simp)).2
    | cons q rest' =>
      obtain ⟨k, v⟩ := p
      obtain ⟨l, w⟩ := q
      obtain ⟨hmh, hmt⟩ := List.pairwise_cons.mp hms
      obtain ⟨hnh, hnt⟩ := List.pairwise_cons.mp hns
      have hkl : k = l := by
        rcases lt_trichotomy k l with hlt | heq | hgt
        · have h0 : Memory.read ((l, w) :: rest') k = 0 := read_of_lt _ _ (by
            intro p hp
            rcases List.mem_cons.mp hp with rfl | hp
            · exact hlt
            · exact lt_trans hlt (hnh p hp))
          have := h k
          rw [h0] at this
          exact absurd (by simpa [Memory.read] using this) (hmb (k, v) (by simp)).2
        · exact heq
        · have h0 : Memory.read ((k, v) :: rest) l = 0 := read_of_lt _ _ (by
            intro p hp
            rcases List.mem_cons.mp hp with rfl | hp
            · exact hgt
            · exact lt_trans hgt (hmh p hp))
          have := h l
          rw [h0] at this
          exact absurd (by simpa [Memory.read] using this.symm) (hnb (l, w) (by simp)).2
      subst hkl
      have hvw : v = w := by simpa [Memory.read] using h k
      subst hvw
      congr 1
      refine ih rest' (fun a => ?_) hmt (fun p hp => hmb p (by simp [hp])) hnt (fun p hp => hnb p (by simp [hp]))
      by_cases ha : k = a
      · subst ha
        rw [read_of_lt rest k (fun p hp => hmh p hp), read_of_lt rest' k (fun p hp => hnh p hp)]
      · simpa [Memory.read, ha] using h a

/-- Cells at and above 16 do not exist: a canonical memory reads zero there. -/
theorem read_high (m : Memory) (hm : m.wf = true) (a : Nat) (ha : 16 ≤ a) : m.read a = 0 :=
  read_of_avoids m a (fun p hp => by have := (((wf_iff m).mp hm).2 p hp).1; omega)

/-- The same write done twice is that write. -/
theorem write_write (m : Memory) (a : Nat) (v : Word) : (m.write a v).write a v = m.write a v := by
  have hr : ∀ m : Memory, (m.remove a).remove a = m.remove a := fun m => by simp [Memory.remove]
  have hi : ∀ m : Memory, (Memory.insert a v m).remove a = m.remove a := by
    intro m
    induction m with
    | nil => simp [Memory.insert, Memory.remove]
    | cons p rest ih =>
      obtain ⟨k, w⟩ := p
      simp only [Memory.remove] at ih
      simp only [Memory.insert]
      split <;> simp [Memory.remove, List.filter_cons, ih]
  by_cases hv : v = 0
  · subst hv; rw [write_zero, write_zero, hr]
  · simp [write_of_ne_zero _ _ _ hv, hi, hr]

theorem wf_foldl_write {α : Type} (key : α → Nat) (val : α → Word) (l : List α) (m : Memory)
    (hk : ∀ x ∈ l, key x < 16) (hm : m.wf = true) :
    (l.foldl (fun m x => m.write (key x) (val x)) m).wf = true := by
  induction l generalizing m with
  | nil => exact hm
  | cons x rest ih =>
    exact ih _ (fun y hy => hk y (by simp [hy])) (wf_write _ _ _ (hk x (by simp)) hm)

theorem read_foldl_write_other {α : Type} (key : α → Nat) (val : α → Word) (l : List α) (m : Memory) (a : Nat)
    (ha : ∀ x ∈ l, key x ≠ a) : (l.foldl (fun m x => m.write (key x) (val x)) m).read a = m.read a := by
  induction l generalizing m with
  | nil => rfl
  | cons x rest ih =>
    rw [List.foldl_cons, ih _ (fun y hy => ha y (by simp [hy])), read_write_other _ _ _ _ (ha x (by simp))]

theorem read_foldl_write {α : Type} (key : α → Nat) (val : α → Word) (l : List α) (m : Memory)
    (hn : (l.map key).Nodup) (x : α) (hx : x ∈ l) :
    (l.foldl (fun m x => m.write (key x) (val x)) m).read (key x) = val x := by
  induction l generalizing m with
  | nil => simp at hx
  | cons y rest ih =>
    obtain ⟨hy, hrest⟩ := List.nodup_cons.mp hn
    rcases List.mem_cons.mp hx with rfl | hx
    · rw [List.foldl_cons, read_foldl_write_other, read_write_same]
      intro z hz heq
      exact hy (List.mem_map.mpr ⟨z, hz, heq⟩)
    · exact ih _ hrest hx

/-- An image's cells are in canonical form. -/
@[simp] theorem wf_ofImage (img : Image) : (Memory.ofImage img).wf = true :=
  wf_foldl_write (fun i : Fin 16 => i.val) (fun i => img.get i) _ _ (fun i _ => i.isLt) wf_nil

/-- An image's cells hold its words. -/
theorem read_ofImage (img : Image) (i : Fin 16) : (Memory.ofImage img).read i.val = img.get i :=
  read_foldl_write (fun i : Fin 16 => i.val) (fun i => img.get i) _ _
    (by simpa using (List.nodup_finRange 16).map Fin.val_injective) i (List.mem_finRange i)

/-- A memory's image holds its cells. -/
@[simp] theorem get_image (m : Memory) (i : Fin 16) : m.image.get i = m.read i.val := by
  simp [Memory.image, Vector.get_eq_getElem]

/-- A canonical memory is the memory of its image. -/
theorem ofImage_image (m : Memory) (hm : m.wf = true) : Memory.ofImage m.image = m := by
  refine eq_of_read _ _ (wf_ofImage _) hm (fun a => ?_)
  by_cases ha : a < 16
  · exact (read_ofImage m.image ⟨a, ha⟩).trans (get_image m ⟨a, ha⟩)
  · rw [read_high _ (wf_ofImage _) _ (not_lt.mp ha), read_high _ hm _ (not_lt.mp ha)]

end Memory

end Sys2Proof.Machine
end

