-- ==== Sys2Proof/Laws/Nvram.lean ====
section
/-! SUPPORT. Everything a save, an arm of the mode dispatch, the edge stage and one P_SBUS sample can do, said once
(R103, R122 to R134, R181). -/

namespace Sys2Proof.Machine

open Sys2Proof

/-- A save changes the store and appends events, by the drawn outcome; nothing else (R181, R182). -/
theorem save_spec (s : State) :
    ∃ st es, save s = { s with store := st, outputs := s.outputs ++ es } ∧ SavedAs s s.cells st es := by
  unfold save SavedAs
  rcases s.env.saveOutcome with _ | _ | torn
  · exact ⟨_, _, rfl, s.cells.image, Memory.get_image _, rfl, rfl⟩
  · exact ⟨none, [_, _], by simp [State.emit, State.setStore], s.cells.image, Memory.get_image _, rfl, rfl⟩
  · exact ⟨_, [_, _], by simp [State.emit, State.setStore], s.cells.image, Memory.get_image _,
      ⟨_, rfl, Memory.wf_ofImage _, Memory.read_ofImage _⟩, rfl⟩

/-- A save's first event is its flush and it emits no notification. -/
theorem savedAs_events (s : State) (m : Memory) (st : Option Memory) (es : List Event) (h : SavedAs s m st es) :
    (∃ e ∈ es, isFlush e = true) ∧ ∀ e ∈ es, isNotify e = false := by
  obtain ⟨image, -, h⟩ := h
  rcases ho : s.env.saveOutcome with _ | _ | torn <;> rw [ho] at h <;> simp at h <;> simp [h, isFlush, isNotify]

/-- A save leaves a canonical store if the cells are canonical. -/
theorem savedAs_wf (s : State) (m : Memory) (st : Option Memory) (es : List Event) (h : SavedAs s m st es)
    (hm : m.wf = true) : ∀ n, st = some n → n.wf = true := by
  obtain ⟨image, -, h⟩ := h
  rcases ho : s.env.saveOutcome with _ | _ | torn <;> rw [ho] at h <;> simp at h
  · rintro n hn; rw [h.1] at hn; cases hn; exact hm
  · simp [h]
  · obtain ⟨⟨n', hn', hw, -⟩, -⟩ := h
    rintro n hn; rw [hn'] at hn; cases hn; exact hw

theorem storedReversed_write (s : State) :
    StoredReversed s (s.cells.write s.nv.address.toNat (rev16 s.nv.dataRegister)) :=
  ⟨fun k hk => by simp [rev16_getLsbD _ _ hk], fun _ ha => Memory.read_write_other _ _ _ _ (Ne.symm ha)⟩

theorem erased_write (s : State) : Erased s (s.cells.write s.nv.address.toNat 0) :=
  ⟨by simp, fun _ ha => Memory.read_write_other _ _ _ _ (Ne.symm ha)⟩

/-- The WRITE_TO_ADDRESS arm: the reversed store, then the save; nothing else (R128). -/
theorem armWriteToAddress_spec (s : State) :
    ∃ st es, StoredReversed s (s.cells.write s.nv.address.toNat (rev16 s.nv.dataRegister)) ∧
      SavedAs s (s.cells.write s.nv.address.toNat (rev16 s.nv.dataRegister)) st es ∧
      armWriteToAddress s = { s with
        cells := s.cells.write s.nv.address.toNat (rev16 s.nv.dataRegister), store := st
        outputs := s.outputs ++ es } := by
  obtain ⟨st, es, h1, h2⟩ := save_spec (memWrite s.nv.address (rev16 s.nv.dataRegister) s)
  exact ⟨st, es, storedReversed_write s, h2, by rw [armWriteToAddress, h1]; rfl⟩

/-- What the mode dispatch can do, in every mode (R124): the latches stay; the cells change only in modes 3 and 5, the
store and the events only in mode 3, a pending transfer is cleared only in mode 2 with a data bit, and nothing outside
the controller, the cells, the store and the events changes. -/
theorem nvDispatch_spec (data : Option Bit) (s : State) :
    ∃ n m st es, nvDispatch data s = { s with nv := n, cells := m, store := st, outputs := s.outputs ++ es } ∧
      n.mode = s.nv.mode ∧ n.address = s.nv.address ∧
      (m ≠ s.cells → s.nv.mode = 3 ∨ s.nv.mode = 5) ∧ (st ≠ s.store → s.nv.mode = 3) ∧
      (∀ e ∈ es, isNotify e = false) ∧ ((∃ e ∈ es, isFlush e = true) ↔ s.nv.mode = 3) ∧
      (s.nv.pendingTransfer = true → n.pendingTransfer = false → s.nv.mode = 2 ∧ data ≠ none) ∧
      (MemoryCanonical s → m.wf = true ∧ ∀ x, st = some x → x.wf = true) := by
  unfold nvDispatch
  rcases decodeMode_cases s.nv.mode with ⟨h, hd⟩ | ⟨h, hd⟩ | ⟨h, hd⟩ | ⟨h, hd⟩ | ⟨h, hd⟩ | ⟨h, hd⟩ | ⟨h, hd⟩ |
    ⟨h, hd⟩ | ⟨h, low, hd⟩ <;> rw [hd]
  · exact ⟨{ s.nv with clockPrevious := 0 }, s.cells, s.store, [], by simp [armStandby, State.setNv], rfl, rfl, by simp,
      by simp, by simp, by simp [h], by simp +contextual, id⟩
  · exact ⟨s.nv, s.cells, s.store, [], by simp [armReadToOutput], rfl, rfl, by simp, by simp, by simp, by simp [h],
      by simp +contextual, id⟩
  · cases data with
    | none =>
      exact ⟨s.nv, s.cells, s.store, [], by simp [armWriteToRegister], rfl, rfl, by simp, by simp, by simp, by simp [h],
        by simp +contextual, id⟩
    | some b =>
      by_cases hp : s.nv.pendingTransfer = true
      · exact ⟨{ s.nv with dataRegister := shiftIn16 s.nv.dataRegister b, pendingTransfer := false }, s.cells, s.store,
          [], by simp [armWriteToRegister, hp, State.setNv], rfl, rfl, by simp, by simp, by simp, by simp [h],
          by simp [h], id⟩
      · exact ⟨s.nv, s.cells, s.store, [], by simp [armWriteToRegister, hp], rfl, rfl, by simp, by simp, by simp,
          by simp [h], by simp [hp], id⟩
  · obtain ⟨st, es, -, h2, h3⟩ := armWriteToAddress_spec s
    obtain ⟨hf, hn⟩ := savedAs_events _ _ _ _ h2
    refine ⟨s.nv, _, st, es, h3, rfl, rfl, fun _ => .inl h, fun _ => h, hn, by simp [hf, h], by simp +contextual, fun hc => ?_⟩
    have hw := Memory.wf_write _ _ (rev16 s.nv.dataRegister) s.nv.address.isLt hc.1
    exact ⟨hw, savedAs_wf _ _ _ _ h2 hw⟩
  · exact ⟨s.nv, s.cells, s.store, [], by simp [armStationMemory], rfl, rfl, by simp, by simp, by simp, by simp [h],
      by simp +contextual, id⟩
  · exact ⟨s.nv, s.cells.write s.nv.address.toNat 0, s.store, [], by simp [armErase, memWrite, State.setCells], rfl, rfl,
      fun _ => .inr h, by simp, by simp, by simp [h], by simp +contextual,
      fun hc => ⟨Memory.wf_write _ _ _ s.nv.address.isLt hc.1, hc.2⟩⟩
  · exact ⟨{ s.nv with dataRegister := memRead s.nv.address s }, s.cells, s.store, [], by simp [armRead, State.setNv],
      rfl, rfl, by simp, by simp, by simp, by simp [h], by simp +contextual, id⟩
  · exact ⟨s.nv, s.cells, s.store, [], by simp [armLastChannelMemory], rfl, rfl, by simp, by simp, by simp, by simp [h],
      by simp +contextual, id⟩
  · refine ⟨s.nv, s.cells, s.store, [], by simp [armInert], rfl, rfl, by simp, by simp, by simp, ?_, by simp +contextual,
      id⟩
    have h3 : s.nv.mode ≠ 3 := by intro h3; rw [h3] at h; simp at h
    simpa using h3

/-- What the mode dispatch can do to the flags: it clears a pending transfer only by moving a present bit in, in mode 2
(R127), and it changes the previous clock only by forcing it to 0, in mode 0 (R125). -/
theorem nvDispatch_flags (data : Option Bit) (s : State) :
    (s.nv.pendingTransfer = true → (nvDispatch data s).nv.pendingTransfer = false →
      s.nv.mode = 2 ∧ ∃ b, data = some b ∧ (nvDispatch data s).nv.dataRegister = shiftIn16 s.nv.dataRegister b) ∧
    ((nvDispatch data s).nv.clockPrevious = s.nv.clockPrevious ∨
      s.nv.mode = 0 ∧ (nvDispatch data s).nv.clockPrevious = 0) := by
  unfold nvDispatch
  rcases decodeMode_cases s.nv.mode with ⟨h, hd⟩ | ⟨h, hd⟩ | ⟨h, hd⟩ | ⟨h, hd⟩ | ⟨h, hd⟩ | ⟨h, hd⟩ | ⟨h, hd⟩ |
    ⟨h, hd⟩ | ⟨h, low, hd⟩ <;> rw [hd] <;> simp only
  · exact ⟨fun hp hq => by simp [armStandby, hp] at hq, .inr ⟨h, rfl⟩⟩
  · exact ⟨fun hp hq => by simp [armReadToOutput, hp] at hq, .inl rfl⟩
  · cases data with
    | none => exact ⟨fun hp hq => by simp [armWriteToRegister, hp] at hq, .inl rfl⟩
    | some b => by_cases hp : s.nv.pendingTransfer = true <;> simp [armWriteToRegister, hp, h]
  · obtain ⟨st, es, -, -, hw⟩ := armWriteToAddress_spec s
    rw [hw]
    exact ⟨fun hp hq => by simp [hp] at hq, .inl rfl⟩
  · exact ⟨fun hp hq => by simp [armStationMemory, hp] at hq, .inl rfl⟩
  · exact ⟨fun hp hq => by simp [armErase, memWrite, hp] at hq, .inl rfl⟩
  · exact ⟨fun hp hq => by simp [armRead, hp] at hq, .inl rfl⟩
  · exact ⟨fun hp hq => by simp [armLastChannelMemory, hp] at hq, .inl rfl⟩
  · exact ⟨fun hp hq => by simp [armInert, hp] at hq, .inl rfl⟩

/-- Without a clock the edge stage is idle (R123; log 8). -/
@[simp] theorem edgeStage_none (s : State) : edgeStage none s = s := rfl

/-- No data argument of a row is seen by a save. -/
theorem save_env (s : State) (data : Option Bit) :
    save { s with env := { s.env with nvData := data } } = { save s with env := { s.env with nvData := data } } := by
  unfold save
  show (match s.env.saveOutcome with | _ => _) = _
  rcases s.env.saveOutcome with _ | _ | torn <;> rfl

/-- The edge stage with a real clock outside STANDBY: the flag is raised by an edge, the previous clock follows (R123). -/
theorem edgeStage_some (v : Nibble) (s : State) (h : s.nv.mode ≠ 0) :
    edgeStage (some (clockField s.cfg v)) s = { s with
      nv := { s.nv with clockPrevious := clockLine s v, pendingTransfer := s.nv.pendingTransfer || nvEdge s v } } := by
  have hm : (s.nv.mode != 0) = true := bne_iff_ne.mpr h
  simp only [edgeStage, edgeNv, edgePending, State.setNv, clockLine, nvEdge, clockField, nibbleBit, rising, hm]
  cases v.getLsbD s.cfg.sbClkBit.val <;> rfl

/-- The receiver's registers after a P_SBUS write (R150). -/
theorem receiverAfter_auxNext (v : Nibble) (s : State) :
    ReceiverAfter s v (auxNext (strobeField s.cfg v) (clockField s.cfg v) (dataField s.cfg v) s.aux) := by
  have hst : (strobeField s.cfg v == 1) = v.getLsbD s.cfg.sbStrobeBit.val := by
    simp only [strobeField, nibbleBit]; cases v.getLsbD s.cfg.sbStrobeBit.val <;> rfl
  by_cases he : s.aux.clockPrevious = 0 ∧ v.getLsbD s.cfg.sbClkBit.val = true
  · have hr : rising s.aux.clockPrevious (clockField s.cfg v) = true :=
      (rising_iff _ _).mpr ⟨he.1, (ofBool_eq_one _).mpr he.2⟩
    obtain ⟨h0, hk⟩ := shiftIn32_getLsbD s.aux.accumulator (dataField s.cfg v)
    rw [auxNext_rising _ _ _ _ hr]
    refine ⟨rfl, hst, ?_⟩
    rw [if_pos he]
    exact ⟨h0.trans (nibbleBit_getLsbD v _), hk⟩
  · have hr : rising s.aux.clockPrevious (clockField s.cfg v) = false := by
      rw [Bool.eq_false_iff, Ne, rising_iff]
      exact fun h => he ⟨h.1, (ofBool_eq_one _).mp h.2⟩
    rw [auxNext_steady _ _ _ _ hr]
    refine ⟨rfl, hst, ?_⟩
    rw [if_neg he]

/-- WR_SBUS as its two steps (R103). -/
theorem exec_wrSbus (v : Nibble) (s : State) :
    exec (.wrSbus v) s = .next (auxStep (strobeField s.cfg v) (clockField s.cfg v) (dataField s.cfg v)
      (nvStep (some (clockField s.cfg v)) (some (dataField s.cfg v)) s)) := rfl

/-- Every operation but INVALID answers a next state (R190). -/
theorem exec_next (i : Instr) (s : State) (h : ∀ a b, i ≠ .invalid a b) : ∃ t, exec i s = .next t := by
  cases i <;> first | exact ⟨_, rfl⟩ | exact absurd rfl (h _ _)

/-- A save does not see the receiver. -/
theorem save_aux (s : State) (a : AuxReceiver) : save { s with aux := a } = { save s with aux := a } := by
  unfold save
  rcases s.env.saveOutcome with _ | _ | torn <;> rfl

/-- The mode dispatch does not see the receiver (R108, R154). -/
theorem nvDispatch_aux (data : Option Bit) (s : State) (a : AuxReceiver) :
    nvDispatch data { s with aux := a } = { nvDispatch data s with aux := a } := by
  unfold nvDispatch
  show (match decodeMode s.nv.mode with | _ => _) = _
  cases decodeMode s.nv.mode <;> try rfl
  · cases data with
    | none => rfl
    | some b => by_cases hp : s.nv.pendingTransfer = true <;> simp [armWriteToRegister, hp, State.setNv]
  · exact save_aux (memWrite s.nv.address (rev16 s.nv.dataRegister) s) a

/-- NVSTEP changes neither the receiver nor the display nor the parameters, and does not see the receiver. -/
theorem nvStep_frame (clock data : Option Bit) (s : State) :
    ((nvStep clock data s).aux = s.aux ∧ (nvStep clock data s).plate = s.plate ∧ (nvStep clock data s).grid = s.grid ∧
      (nvStep clock data s).cfg = s.cfg) ∧
    ∀ a : AuxReceiver, nvStep clock data { s with aux := a } = { nvStep clock data s with aux := a } := by
  obtain ⟨n, m, st, es, h, -⟩ := nvDispatch_spec data (edgeStage clock s)
  refine ⟨?_, nvDispatch_aux data (edgeStage clock s)⟩
  unfold nvStep
  rw [h]
  exact ⟨rfl, rfl, rfl, rfl⟩

/-- NVREAD touches the controller's registers alone (R134). -/
theorem nvRead_spec (s : State) : ∃ n, nvRead s = { s with nv := n } ∧ n.mode = s.nv.mode ∧
    n.address = s.nv.address ∧ n.clockPrevious = s.nv.clockPrevious ∧ (outputReady s.nv = false → n = s.nv) := by
  unfold nvRead
  by_cases h : outputReady s.nv = true
  · rw [if_pos h]; exact ⟨_, rfl, rfl, rfl, rfl, by simp [h]⟩
  · rw [if_neg h]; exact ⟨s.nv, rfl, rfl, rfl, rfl, fun _ => rfl⟩

end Sys2Proof.Machine
end

