-- ==== Sys2Proof/Laws/PerInstr.lean ====
section
/-! SUPPORT. The statements made per instruction, one lemma for each constructor. -/

namespace Sys2Proof.Laws.MatchesTable

open Sys2Proof

/-- Under the default parameters the word of a well-formed operation has the bits that its row of spec/opcode_table.json
fixes (R81, R83). -/
def Statement (i : Instr) : Prop :=
  i.wf Config.defaults = true → (encode Config.defaults i).bits &&& (tableRow i).mask = (tableRow i).value

theorem wrAddr : ∀ value : Nibble, Statement (.wrAddr value) := by unfold Statement; decide

theorem wrMode : ∀ value : Nibble, Statement (.wrMode value) := by unfold Statement; decide

theorem wrPlate0 : ∀ value : Nibble, Statement (.wrPlate0 value) := by unfold Statement; decide

theorem wrPlate1 : ∀ value : Nibble, Statement (.wrPlate1 value) := by unfold Statement; decide

theorem wrPlate2 : ∀ value : Nibble, Statement (.wrPlate2 value) := by unfold Statement; decide

theorem wrPlgr : ∀ value : Nibble, Statement (.wrPlgr value) := by unfold Statement; decide

theorem wrGridS12 : Statement .wrGridS12 := by unfold Statement; decide

theorem wrGrid : ∀ value : Nibble, Statement (.wrGrid value) := by unfold Statement; decide

theorem wrSbus : ∀ value : Nibble, Statement (.wrSbus value) := by unfold Statement; decide

theorem wrNone : ∀ port value : Nibble, Statement (.wrNone port value) := by unfold Statement; decide

theorem rdSbus : ∀ value : Nibble, Statement (.rdSbus value) := by unfold Statement; decide

theorem rdIn : ∀ port value : Nibble, Statement (.rdIn port value) := by unfold Statement; decide

theorem drain : ∀ port value : Nibble, Statement (.drain port value) := by unfold Statement; decide

theorem invalid : ∀ port value : Nibble, Statement (.invalid port value) := by unfold Statement; decide

theorem standby : Statement .standby := by unfold Statement; decide

theorem readToOutput : Statement .readToOutput := by unfold Statement; decide

theorem writeToRegister : Statement .writeToRegister := by unfold Statement; decide

theorem writeToAddress : Statement .writeToAddress := by unfold Statement; decide

theorem stationMemory : Statement .stationMemory := by unfold Statement; decide

theorem erase : Statement .erase := by unfold Statement; decide

theorem read : Statement .read := by unfold Statement; decide

theorem lastChannelMemory : Statement .lastChannelMemory := by unfold Statement; decide

theorem inert : ∀ low : BitVec 3, Statement (.inert low) := by unfold Statement; decide

end Sys2Proof.Laws.MatchesTable
end

