-- ==== Sys2Proof/Laws/Step.lean ====
section
/-! SUPPORT. What one step can be, said once (R8, R63, R211). -/

namespace Sys2Proof.Machine

open Sys2Proof

/-- A step that answers a next state waits, is a power-on, or runs an operation in a state that differs from the old one
in the requests and the draws alone. No step supplies a data bit outside a P_SBUS write (R109). -/
theorem step_cases (s t : State) (h : step s = .next t) :
    (s.requests = [] ∧ t = s) ∨
    (∃ f rest, s.requests = .powerOn f :: rest ∧ t = powerOn f (s.setRequests rest)) ∨
    ∃ i e, exec i { s with requests := s.requests.tail, env := e } = .next t ∧ e.nvData = none := by
  rcases hr : s.requests with _ | ⟨r, rest⟩ <;> simp only [step, serveNext, hr] at h
  · cases h; exact .inl ⟨rfl, rfl⟩
  · cases r with
    | powerOn f => cases h; exact .inr (.inl ⟨f, rest, rfl, rfl⟩)
    | transaction w x o => exact .inr (.inr ⟨_, _, h, rfl⟩)
    | nvstep o => exact .inr (.inr ⟨_, _, h, rfl⟩)

/-- A power-on, field by field (R180, R211). -/
theorem powerOn_spec (f : Bool) (s : State) :
    powerOn f s = { s with
      cells := if f then [] else s.store.getD []
      nv := Nvram.ofReset s.cfg.resetValues
      aux := AuxReceiver.ofReset s.cfg.resetValues
      plate := s.cfg.resetValues.plate
      grid := s.cfg.resetValues.grid
      outputs := if f then s.outputs ++ [.storageIOFailure] else s.outputs } := by
  cases f <;> rfl

end Sys2Proof.Machine
end

