-- ==== Sys2Proof/Tests/Slice0.lean ====
section
/-! SUPPORT. Tests whose expected results are the spec's worked examples (95_test_vectors.md, by their ids, and the
examples inside the rules), and a witness for every statement that has hypotheses. -/

namespace Sys2Proof.Tests

open Sys2Proof Sys2Proof.Machine

/-! ## Helpers -/

/-- A part of the next state, if there is one. -/
def after {α : Type} (o : Host.Outcome State Fault Refusal) (f : State → α) : Option α :=
  match o with
  | .next t => some (f t)
  | .fault _ => none
  | .refused _ => none

/-- One step on a transaction word (R71). -/
def onWord (w : Nat) (s : State) : Host.Outcome State Fault Refusal := step (s.withFetchWord 16 w)

/-- Reset with given controller registers. -/
def withNv (mode address : Nibble) (data : Word) (clockPrevious : Bit) (pending : Bool) : State :=
  State.reset.setNv { mode := mode, address := address, dataRegister := data, clockPrevious := clockPrevious, pendingTransfer := pending }

/-- Reset with given receiver registers. -/
def withAux (clockPrevious : Bit) (strobed : Bool) (accumulator : Frame) : State :=
  State.reset.setAux { clockPrevious := clockPrevious, strobed := strobed, accumulator := accumulator }

/-- Reset with given display registers. -/
def withDisplay (plate grid : Word) : State := (State.reset.setPlate plate).setGrid grid

/-- A state with a given input nibble for its reads. -/
def withExtIn (x : Nibble) (s : State) : State := s.setEnv { s.env with extIn := x }

/-- A state with a given outcome for its saves. -/
def withSave (o : SaveOutcome) (s : State) : State := s.setEnv { s.env with saveOutcome := o }

/-- A state with a data argument for a mode row. -/
def withData (b : Bit) (s : State) : State := s.setEnv { s.env with nvData := some b }

/-- The default parameters without the step on a mode write (R6). -/
def noStepConfig : Config := { Config.defaults with nvStepOnModeWrite := false }

/-- A torn image whose cell 3 is 0xDEAD (vector ST7). -/
def tornImage : Image := Vector.ofFn (fun i => if i = 3 then 0xDEAD else 0)

/-! ## WellFormed -/

theorem test_wf_refuses_sentinel_as_ordinary_grid_value : (Instr.wrGrid 12).wf Config.defaults = false := by decide

theorem test_wf_refuses_assigned_selector_as_none : (Instr.wrNone 7 0).wf Config.defaults = false := by decide

theorem test_wf_refuses_bus_port_as_other_read : (Instr.rdIn 7 0).wf Config.defaults = false := by decide

theorem test_config_refuses_shared_selector :
    ({ Config.defaults with ports := { PortMap.defaults with sbus := 0 } }).wf = false := by decide

theorem test_config_refuses_shared_bus_bit : ({ Config.defaults with sbDataBit := 0 }).wf = false := by decide

theorem test_config_admits_defaults : Config.defaults.wf = true := by decide

/-! ## Decoding: one word for each constructor, written out from R71, R73 and R78 -/

theorem test_decode_wr_addr : decodeTableWord 16 0b0000000011 = some (.wrAddr 3) := by decide

theorem test_decode_wr_mode : decodeTableWord 16 0b0000011001 = some (.wrMode 9) := by decide

theorem test_decode_wr_plate0 : decodeTableWord 16 0b0000101010 = some (.wrPlate0 10) := by decide

theorem test_decode_wr_plate1 : decodeTableWord 16 0b0000110101 = some (.wrPlate1 5) := by decide

theorem test_decode_wr_plate2 : decodeTableWord 16 0b0001001111 = some (.wrPlate2 15) := by decide

theorem test_decode_wr_plgr : decodeTableWord 16 0b0001011000 = some (.wrPlgr 8) := by decide

theorem test_decode_wr_grid_s12 : decodeTableWord 16 0b0001101100 = some .wrGridS12 := by decide

theorem test_decode_wr_grid : decodeTableWord 16 0b0001101011 = some (.wrGrid 11) := by decide

theorem test_decode_wr_sbus : decodeTableWord 16 0b0001111011 = some (.wrSbus 11) := by decide

theorem test_decode_wr_none : decodeTableWord 16 0b0010000000 = some (.wrNone 8 0) := by decide

theorem test_decode_rd_sbus : decodeTableWord 16 0b0101111111 = some (.rdSbus 15) := by decide

theorem test_decode_rd_in : decodeTableWord 16 0b0111110000 = some (.rdIn 15 0) := by decide

theorem test_decode_drain : decodeTableWord 16 0b1010101011 = some (.drain 10 11) := by decide

theorem test_decode_invalid : decodeTableWord 16 0b1110100101 = some (.invalid 10 5) := by decide

theorem test_decode_standby : decodeTableWord 8 0b0000 = some .standby := by decide

theorem test_decode_read_to_output : decodeTableWord 8 0b0001 = some .readToOutput := by decide

theorem test_decode_write_to_register : decodeTableWord 8 0b0010 = some .writeToRegister := by decide

theorem test_decode_write_to_address : decodeTableWord 8 0b0011 = some .writeToAddress := by decide

theorem test_decode_station_memory : decodeTableWord 8 0b0100 = some .stationMemory := by decide

theorem test_decode_erase : decodeTableWord 8 0b0101 = some .erase := by decide

theorem test_decode_read : decodeTableWord 8 0b0110 = some .read := by decide

theorem test_decode_last_channel_memory : decodeTableWord 8 0b0111 = some .lastChannelMemory := by decide

theorem test_decode_inert : decodeTableWord 8 0b1001 = some (.inert 1) := by decide

theorem test_decode_refuses_wide_words : decodeTableWord 16 0x400 = none ∧ decodeTableWord 8 0x10 = none := by
  decide

/-- Every word carries the bits that its operation's row of spec/opcode_table.json fixes. -/
theorem test_decode_matches_opcode_table : ∀ w : BitVec 10,
    w.toNat &&& (tableRow (decode Config.defaults (.transaction w))).mask =
      (tableRow (decode Config.defaults (.transaction w))).value := by
  decide

/-! ## Port writes and reads -/

/-- R120's example. -/
theorem test_wr_addr : after (onWord 0x003 State.reset) (fun t => (t.nv.address, t.outputs)) = some (3, []) := by
  decide

/-- M2: a step with NODATA leaves the transfer pending. -/
theorem test_wr_mode_no_data : after (onWord 0x012 (withNv 9 0 0x0001 0 true))
    (fun t => (t.nv.mode, t.nv.pendingTransfer, t.nv.dataRegister)) = some (2, true, 0x0001) := by
  decide

/-- M3: the store is bit-reversed and saved at once. -/
theorem test_wr_mode_stores : after (onWord 0x013 (withNv 0 3 0x000A 0 false))
    (fun t => (t.cells.read 3, t.store, t.outputs.countP isFlush)) = some (0x5000, some [(3, 0x5000)], 1) := by
  decide

/-- PL5. -/
theorem test_wr_plate0 : after (onWord 0x023 (withDisplay 0x0F5A 0)) (fun t => (t.plate, t.outputs)) =
    some (0x0F53, [.displayNotify 0x0F53 0 13 6]) := by
  decide

/-- PL2. -/
theorem test_wr_plate1 : after (onWord 0x035 (withDisplay 0x000A 0)) (fun t => t.plate) = some 0x005A := by
  decide

/-- PL3, PL7. -/
theorem test_wr_plate2 : after (onWord 0x04F (withDisplay 0x005A 0)) (fun t => t.plate) = some 0x0F5A ∧
    after (onWord 0x040 (withDisplay 0xF000 0)) (fun t => t.plate) = some 0xF000 := by
  decide

/-- PL4. -/
theorem test_wr_plgr_sets : after (onWord 0x058 (withDisplay 0x0F5A 0)) (fun t => (t.plate, t.grid)) =
    some (0x085A, 0x0010) := by
  decide

/-- PL6. -/
theorem test_wr_plgr_clears : after (onWord 0x057 (withDisplay 0x0800 0x0030)) (fun t => (t.plate, t.grid)) =
    some (0x0F00, 0x0020) := by
  decide

/-- G1, G5. -/
theorem test_wr_grid : after (onWord 0x067 State.reset) (fun t => t.grid) = some 0x0027 ∧
    after (onWord 0x060 (withDisplay 0 0x003F)) (fun t => t.grid) = some 0x0030 := by
  decide

/-- G3, G10. -/
theorem test_wr_grid_s12 : after (onWord 0x06C (withDisplay 0 0x0017)) (fun t => t.grid) = some 0x0037 ∧
    after (onWord 0x06C (withDisplay 0 0x01C0)) (fun t => t.grid) = some 0x0020 := by
  decide

/-- M1: a stale transfer takes this write's bit, and bit 15 is lost. -/
theorem test_wr_sbus_stale_transfer : after (onWord 0x073 (withNv 2 0 0x8005 1 true))
    (fun t => (t.nv.dataRegister, t.nv.pendingTransfer)) = some (0x000B, false) := by
  decide

/-- A1: an edge with the strobe high. -/
theorem test_wr_sbus_receiver : after (onWord 0x077 (withAux 0 false 5)) (fun t => t.aux) =
    some { clockPrevious := 1, strobed := true, accumulator := 0xB } := by
  decide

/-- E11. -/
theorem test_wr_none : after (onWord 0x09F (withDisplay 0 0x0027)) (fun t => (t.grid, t.outputs)) = some (0x0027, []) := by
  decide

/-- E8. -/
theorem test_rd_sbus_moves : after (onWord 0x170 (withExtIn 0b0101 (withNv 1 0 0x5001 0 true)))
    (fun t => (t.nv.dataRegister, t.nv.pendingTransfer, t.outputs)) = some (0x2800, false, [.readResponse 0b1101]) := by
  decide

/-- M13: a read in mode 6 neither shifts nor reloads. -/
theorem test_rd_sbus_other_mode : after (onWord 0x170 (withExtIn 0xF ((withNv 6 2 0x0001 0 true).setCells [(2, 0xBEEF)])))
    (fun t => (t.nv.dataRegister, t.nv.pendingTransfer, t.outputs)) = some (0x0001, true, [.readResponse 0x7]) := by
  decide

/-- E10. -/
theorem test_rd_in : after (onWord 0x160 (withExtIn 0x9 (withDisplay 0 0x0027))) (fun t => (t.grid, t.outputs)) =
    some (0x0027, [.readResponse 0x9]) := by
  decide

/-- A7, A10. -/
theorem test_drain : after (onWord 0x200 (withAux 1 true 0xB)) (fun t => (t.aux, t.outputs)) =
    some ({ clockPrevious := 1, strobed := false, accumulator := 0 }, [.auxFrame 0x0000000B]) := by
  decide

/-- A6. -/
theorem test_drain_without_strobe : after (onWord 0x200 (withAux 0 false 0xB)) (fun t => (t.aux.accumulator, t.outputs)) =
    some (0xB, []) := by
  decide

/-- E12. -/
theorem test_invalid : onWord 0x3A5 State.reset = .refused .reservedKind := rfl

/-! ## Mode rows -/

/-- R125's example: the edge stage sets the flag, the arm sets it to 0, and no transfer is raised. -/
theorem test_standby : after (onWord 0x071 (withNv 0 0 0 1 false)) (fun t => (t.nv.clockPrevious, t.nv.pendingTransfer)) =
    some (0, false) := by
  decide

/-- R126's example. -/
theorem test_read_to_output : after (onWord 0x071 (withNv 1 0 0x0003 0 false))
    (fun t => (t.nv.pendingTransfer, t.nv.dataRegister)) = some (true, 0x0003) := by
  decide

/-- R127's example, by the mode row itself. -/
theorem test_write_to_register : after (exec .writeToRegister (withData 1 (withNv 2 0 0x8005 1 true)))
    (fun t => (t.nv.dataRegister, t.nv.pendingTransfer)) = some (0x000B, false) := by
  decide

/-- M4. -/
theorem test_write_to_address : after (exec .writeToAddress (withNv 3 15 0x0001 0 false)) (fun t => t.cells) =
    some [(15, 0x8000)] := by
  decide

/-- ST7: a torn image stays in the store, the cells hold the word, and the failure is logged. -/
theorem test_write_to_address_failed_save :
    after (exec .writeToAddress (withSave (.fail (some tornImage)) (withNv 3 3 0x000A 0 false)))
      (fun t => (t.cells, t.store, t.outputs.getLast?)) =
      some ([(3, 0x5000)], some [(3, 0xDEAD)], some .storageIOFailure) := by
  decide

/-- M8, R129's example, on one edge. -/
theorem test_station_memory : after (onWord 0x073 (withNv 4 0 0x00AA 0 false))
    (fun t => (t.nv.dataRegister, t.cells, t.nv.pendingTransfer, t.nv.clockPrevious)) = some (0x00AA, [], true, 1) := by
  decide

/-- S3, M6: no flush. -/
theorem test_erase : after (exec .erase (((withNv 5 3 0x1234 0 false).setCells [(3, 0x5000)]).setStore (some [(3, 0x5000)])))
    (fun t => (t.cells, t.store, t.nv.dataRegister, t.outputs)) = some ([], some [(3, 0x5000)], 0x1234, []) := by
  decide

/-- M7. -/
theorem test_read : after (exec .read ((withNv 6 3 0 0 false).setCells [(3, 0x5000)]))
    (fun t => (t.nv.dataRegister, t.cells)) = some (0x5000, [(3, 0x5000)]) := by
  decide

/-- R132's example, on one edge. -/
theorem test_last_channel_memory : after (onWord 0x073 (withNv 7 0 0x00AA 0 false))
    (fun t => (t.nv.dataRegister, t.cells, t.nv.pendingTransfer)) = some (0x00AA, [], true) := by
  decide

/-- M9's second write. -/
theorem test_inert : after (onWord 0x073 (withNv 9 0 0 0 false))
    (fun t => (t.nv.dataRegister, t.nv.pendingTransfer, t.aux.accumulator)) = some (0, true, 1) := by
  decide

/-- R109: a step by itself brings no sample, so a pending transfer is not moved and no edge is taken. -/
theorem test_mode_word_takes_no_sample : after (step ((withData 1 (withNv 0 0 0x8005 0 true)).withFetchWord 8 2))
    (fun t => (t.nv.dataRegister, t.nv.pendingTransfer, t.nv.clockPrevious)) = some (0x8005, true, 0) := by
  decide

/-- A mode word placed for the next step is run by it. -/
theorem test_mode_word_runs : after (step ((withNv 0 3 0x000A 0 false).withFetchWord 8 3)) (fun t => t.cells) =
    some [(3, 0x5000)] := by
  decide

/-! ## Power-on, the store and the arithmetic -/

/-- ST2. -/
theorem test_power_on_loads : (powerOn false ((withNv 3 5 0x1234 1 true).setStore (some [(5, 0x2C48)]))).cells =
    [(5, 0x2C48)] := by
  decide

/-- ST3. -/
theorem test_power_on_load_failure : (powerOn true (State.reset.setStore (some [(5, 0x2C48)]))).cells = [] ∧
    (powerOn true (State.reset.setStore (some [(5, 0x2C48)]))).outputs = [.storageIOFailure] := by
  decide

/-- R39: a launch with the defaults and no store is the reset state. -/
theorem test_launch_is_reset : launch Config.defaults none = State.reset := by decide

/-- ST9. -/
theorem test_blob_bytes : (blobBytes .little [(0, 0x5000), (3, 0x2C48)]).take 8 = [0, 0x50, 0, 0, 0, 0, 0x48, 0x2C] ∧
    (blobBytes .big [(0, 0x5000), (3, 0x2C48)]).take 8 = [0x50, 0, 0, 0, 0, 0, 0x2C, 0x48] := by
  decide

/-- M5. -/
theorem test_rev16 : rev16 0x8000 = 0x0001 ∧ rev16 0x00FF = 0xFF00 ∧ rev16 0xBEEF = 0xF77D := by decide

/-- R85: PULSE_S 1 is the words 0x072 and 0x077 (P4), RD P_SBUS is 0x170, DRAIN 0x200. -/
theorem test_listing_words :
    (pulseS 1).map (assemble Config.defaults 0 .ok false) = [.transaction 0x072 0 .ok, .transaction 0x077 0 .ok] ∧
    assemble Config.defaults 0 .ok false (.rd (.named .sbus)) = .transaction 0x170 0 .ok ∧
    assemble Config.defaults 0 .ok false .drain = .transaction 0x200 0 .ok := by
  decide

/-- R85: SHIFT_IN16 is sixteen pulses, most significant bit first (P2's first bits are 0, 0, 0, 1). -/
theorem test_shift_in_lines : (shiftInLines 0x1234).length = 32 ∧ (shiftInLines 0x1234)[6]? = some (.wrSbus 0 1 0) ∧
    (shiftOutLines).length = 48 := by
  decide

/-! ## Witnesses: states and operands that meet the hypotheses of the statements -/

theorem witness_DecodeOfEncodeGivesInstr :
    Config.defaults.wf = true ∧ (Instr.wrGrid 13).wf Config.defaults = true ∧
      (Instr.wrNone 8 15).wf Config.defaults = true ∧ (Instr.rdIn 6 15).wf Config.defaults = true ∧
      (Instr.inert 7).wf Config.defaults = true := by
  decide

theorem witness_EncodeOfDecodeGivesWord :
    noStepConfig.wf = true := by
  decide

/-- A word for each clause, at the ends of its range. -/
theorem witness_DecodingFollowsKindPortValue :
    Config.defaults.wf = true ∧ kindField 0x300 = 3 ∧ kindField 0x3FF = 3 ∧ kindField 0x200 = 2 ∧ kindField 0x2FF = 2 ∧
    (kindField 0x17F = 1 ∧ portField 0x17F = Config.defaults.ports.sbus) ∧
    (kindField 0x16F = 1 ∧ portField 0x16F ≠ Config.defaults.ports.sbus) ∧
    (kindField 0x180 = 1 ∧ portField 0x180 ≠ Config.defaults.ports.sbus) ∧
    (kindField 0x080 = 0 ∧ portField 0x080 ∉ Config.defaults.ports.selectors) ∧
    (kindField 0x0FF = 0 ∧ portField 0x0FF ∉ Config.defaults.ports.selectors) ∧
    (kindField 0x00F = 0 ∧ portField 0x00F = Config.defaults.ports.addr) ∧
    (kindField 0x01F = 0 ∧ portField 0x01F = Config.defaults.ports.mode) ∧
    (kindField 0x02F = 0 ∧ portField 0x02F = Config.defaults.ports.plate0) ∧
    (kindField 0x03F = 0 ∧ portField 0x03F = Config.defaults.ports.plate1) ∧
    (kindField 0x04F = 0 ∧ portField 0x04F = Config.defaults.ports.plate2) ∧
    (kindField 0x05F = 0 ∧ portField 0x05F = Config.defaults.ports.plgr) ∧
    (kindField 0x06C = 0 ∧ portField 0x06C = Config.defaults.ports.grid ∧ valueField 0x06C = 12) ∧
    (kindField 0x06D = 0 ∧ portField 0x06D = Config.defaults.ports.grid ∧ valueField 0x06D ≠ 12) ∧
    (kindField 0x06B = 0 ∧ portField 0x06B = Config.defaults.ports.grid ∧ valueField 0x06B ≠ 12) ∧
    (kindField 0x07F = 0 ∧ portField 0x07F = Config.defaults.ports.sbus) := by
  decide

theorem witness_StepRunsDecodedTransaction :
    (State.reset.setRequests [.transaction 0x06C 0xF .ok, .powerOn false]).requests =
        .transaction 0x06C 0xF .ok :: [.powerOn false] ∧
      decode Config.defaults (.transaction 0x06C) = .wrGridS12 := by
  decide

theorem witness_StepRunsLatchedMode :
    ((withNv 2 0 0 0 false).setRequests [.nvstep .ok]).requests = .nvstep .ok :: [] ∧
      decode Config.defaults (.mode (withNv 2 0 0 0 false).nv.mode) = .writeToRegister := by
  decide

theorem witness_StepWaitsWithoutRequest :
    State.reset.requests = [] := by
  rfl

theorem witness_StepCompletesUnlessReservedKind :
    (∀ r, State.reset.requests.head? = some r → r.reserved = false) ∧
      (Request.transaction 0x2FF 0 .ok).reserved = false ∧ (Request.transaction 0x300 0 .ok).reserved = true ∧
      step (State.reset.setRequests [.transaction 0x300 0 .ok]) = .refused .reservedKind :=
  ⟨by decide, by decide, by decide, rfl⟩

theorem witness_StepTakesOneRequestAndAppendsEvents :
    ∃ t, step (State.reset.setRequests [.transaction 0x067 0 .ok]) = .next t ∧ t.requests = [] ∧
      t.outputs = [.displayNotify 0 0x0027 13 6] :=
  ⟨_, rfl, by decide, by decide⟩

theorem witness_PowerOnRestoresResetValues :
    (State.reset.setRequests [.powerOn false]).requests = .powerOn false :: [] ∧
      (State.reset.setRequests [.powerOn true]).requests = .powerOn true :: [] := by
  decide

theorem witness_StepKeepsMemoryCanonical :
    MemoryCanonical ((withNv 0 15 0x0001 0 false).setRequests [.transaction 0x013 0 .ok]) ∧
      ∃ t, step ((withNv 0 15 0x0001 0 false).setRequests [.transaction 0x013 0 .ok]) = .next t ∧
        t.cells = [(15, 0x8000)] :=
  ⟨⟨by decide, fun _ h => absurd h (by simp [withNv, State.setNv, State.setRequests, State.reset])⟩, _, rfl, by decide⟩

theorem witness_StepKeepsDisplayUpperBitsClear :
    DisplayUpperBitsClear ((withDisplay 0x0FFF 0x003F).setRequests [.transaction 0x06C 0 .ok]) ∧
      ∃ t, step ((withDisplay 0x0FFF 0x003F).setRequests [.transaction 0x06C 0 .ok]) = .next t ∧ t.grid = 0x003F :=
  ⟨by decide, _, rfl, by decide⟩

theorem witness_GridBit5StaysSetUntilPowerOn :
    ((withDisplay 0 0x0020).setRequests [.transaction 0x060 0 .ok]).grid.getLsbD 5 = true ∧
      (∀ f, ((withDisplay 0 0x0020).setRequests [.transaction 0x060 0 .ok]).requests.head? ≠ some (.powerOn f)) ∧
      ∃ t, step ((withDisplay 0 0x0020).setRequests [.transaction 0x060 0 .ok]) = .next t :=
  ⟨by decide, by decide, _, rfl⟩

theorem witness_StepKeepsParameters :
    ∃ t, step (State.reset.setRequests [.powerOn true]) = .next t ∧ t.outputs = [.storageIOFailure] :=
  ⟨_, rfl, by decide⟩

/-- For each clause a step that changes its element. -/
theorem witness_ElementsChangeOnlyByOwners :
    after (exec (.rdSbus 0) (withNv 1 0 0x8000 0 true)) (fun t => (t.nv.dataRegister, t.nv.pendingTransfer)) =
      some (0x4000, false) ∧
    after (exec (.wrMode 15) State.reset) (fun t => t.nv.mode) = some 15 ∧
    after (exec (.wrAddr 15) State.reset) (fun t => t.nv.address) = some 15 ∧
    after (exec (.wrSbus 1) State.reset) (fun t => t.aux.clockPrevious) = some 1 ∧
    after (exec (.drain 0 0) (withAux 0 true 0)) (fun t => t.aux.strobed) = some false ∧
    after (exec (.wrPlgr 15) State.reset) (fun t => (t.plate, t.grid)) = some (0x0700, 0x0010) ∧
    after (exec (.wrMode 3) (withNv 0 0 1 0 false)) (fun t => (t.cells, t.store)) =
      some ([(0, 0x8000)], some [(0, 0x8000)]) ∧
    after (exec (.wrSbus 0) ((withNv 5 0 0 0 false).setCells [(0, 1)])) (fun t => t.cells) = some [] ∧
    after (exec .writeToAddress (withNv 0 0 1 0 false)) (fun t => (t.cells, t.store)) =
      some ([(0, 0x8000)], some [(0, 0x8000)]) ∧
    after (exec .erase (State.reset.setCells [(0, 1)])) (fun t => t.cells) = some [] := by
  decide

/-- The ways the controller's previous clock changes. -/
theorem witness_ElementsChangeOnlyByOwners_clockPrevious :
    after (exec (.wrSbus 1) (withNv 15 0 0 0 false)) (fun t => t.nv.clockPrevious) = some 1 ∧
    after (exec (.wrSbus 1) (withNv 0 0 0 1 false)) (fun t => t.nv.clockPrevious) = some 0 ∧
    after (exec (.wrMode 0) (withNv 2 0 0 1 false)) (fun t => t.nv.clockPrevious) = some 0 ∧
    after (exec .standby (withNv 2 0 0 1 false)) (fun t => t.nv.clockPrevious) = some 0 := by
  decide

/-- The three ways a pending transfer is cleared, each with the bit it moves. -/
theorem witness_PendingClearedOnlyByMovedBit :
    after (exec (.wrSbus 2) (withNv 2 0 0x8001 0 true)) (fun t => (t.nv.pendingTransfer, t.nv.dataRegister)) =
      some (false, 0x0003) ∧
    after (exec (.rdSbus 0) (withNv 1 0 0x8001 0 true)) (fun t => (t.nv.pendingTransfer, t.nv.dataRegister)) =
      some (false, 0x4000) ∧
    after (exec .writeToRegister (withData 1 (withNv 2 0 0x8001 0 true)))
      (fun t => (t.nv.pendingTransfer, t.nv.dataRegister)) = some (false, 0x0003) := by
  decide

theorem witness_NotifiesOncePerDisplayWrite :
    after (exec (.wrGrid 0) (withDisplay 0 0x0020)) (fun t => t.outputs.countP isNotify) = some 1 ∧
    after (exec (.wrSbus 15) State.reset) (fun t => t.outputs.countP isNotify) = some 0 := by
  decide

/-- The three ways a save happens, and one operation without one. -/
theorem witness_FlushesOnlyInWriteToAddress :
    after (exec (.wrSbus 0) (withNv 3 0 0 0 false)) (fun t => t.outputs.countP isFlush) = some 1 ∧
    after (exec (.wrMode 3) State.reset) (fun t => t.outputs.countP isFlush) = some 1 ∧
    after (exec .writeToAddress State.reset) (fun t => t.outputs.countP isFlush) = some 1 ∧
    after (exec (.wrMode 5) State.reset) (fun t => t.outputs.countP isFlush) = some 0 := by
  decide

theorem witness_ReceiverIgnoresNvram :
    ∃ t, exec (.wrSbus 7) (withNv 0 0 0 0 false) = .next t ∧ t.aux.accumulator = 1 :=
  ⟨_, rfl, by decide⟩

theorem witness_NothingOutsideDependsOnReceiverButByDrain :
    (∀ p v, Instr.rdSbus 0 ≠ .drain p v) ∧ ∃ t, exec (.rdSbus 0) (withAux 0 true 7) = .next t :=
  ⟨by simp, _, rfl⟩

theorem witness_LevelActionsIdempotent :
    ∀ i ∈ [Instr.standby, .writeToAddress, .erase, .read],
      i = .standby ∨ i = .writeToAddress ∨ i = .erase ∨ i = .read := by
  simp

theorem witness_WrModeWithoutStepLatchesOnly :
    ({ State.reset with cfg := noStepConfig }).cfg.nvStepOnModeWrite = false := by
  rfl

theorem witness_WrModeToModeWithoutLevelAction :
    State.reset.cfg.nvStepOnModeWrite = true ∧ ∀ v ∈ [(1 : Nibble), 2, 4, 7, 8, 15], v ≠ 0 ∧ v ≠ 3 ∧ v ≠ 5 ∧ v ≠ 6 := by
  decide

theorem witness_WrModeToStandbyEraseRead :
    State.reset.cfg.nvStepOnModeWrite = true := by
  rfl

theorem witness_WrModeToWriteToAddress :
    (withNv 15 15 0xFFFF 1 true).cfg.nvStepOnModeWrite = true := by
  rfl

theorem witness_StandbyForcesClockPreviousZero :
    (withNv 0 0 0 1 true).nv.mode = 0 := by
  rfl

theorem witness_WriteToRegisterShiftsDataIn :
    ((withData 1 (withNv 2 0 0x8005 0 true)).nv.pendingTransfer = true ∧
        (withData 1 (withNv 2 0 0x8005 0 true)).env.nvData = some 1) ∧
      (withData 1 (withNv 2 0 0x8005 0 false)).nv.pendingTransfer = false ∧
      (withNv 2 0 0x8005 0 true).env.nvData = none := by
  decide

theorem witness_EraseZeroesAddressedCell :
    (withNv 5 15 0 1 true).nv.mode = 5 := by
  rfl

theorem witness_ReadCopiesCellVerbatim :
    (withNv 6 15 0 1 true).nv.mode = 6 := by
  rfl

theorem witness_WrSbusFeedsReceiver :
    (∀ w, Instr.rdSbus 0 ≠ .wrSbus w) ∧ (∀ p w, Instr.rdSbus 0 ≠ .drain p w) ∧
      ∃ t, exec (.rdSbus 0) (withAux 1 true 7) = .next t :=
  ⟨by simp, by simp, _, rfl⟩

theorem witness_WrSbusInStandby :
    (withNv 0 0 0 1 true).nv.mode = 0 := by
  rfl

theorem witness_WrSbusInModesWithoutArm :
    ∀ m ∈ [(1 : Nibble), 4, 7, 8, 15], (withNv m 0 0 0 false).nv.mode ≠ 0 ∧ (withNv m 0 0 0 false).nv.mode ≠ 2 ∧
      (withNv m 0 0 0 false).nv.mode ≠ 3 ∧ (withNv m 0 0 0 false).nv.mode ≠ 5 ∧ (withNv m 0 0 0 false).nv.mode ≠ 6 := by
  decide

theorem witness_WrSbusInWriteToRegister :
    (withNv 2 0 0 0 false).nv.mode = 2 ∧
      ((withNv 2 0 0 0 false).nv.pendingTransfer || nvEdge (withNv 2 0 0 0 false) 1) = true ∧
      ((withNv 2 0 0 1 true).nv.pendingTransfer || nvEdge (withNv 2 0 0 1 true) 1) = true ∧
      ((withNv 2 0 0 1 false).nv.pendingTransfer || nvEdge (withNv 2 0 0 1 false) 1) = false := by
  decide

theorem witness_WrSbusInWriteToAddress :
    (withNv 3 15 0xFFFF 0 false).nv.mode = 3 := by
  rfl

theorem witness_WrSbusInEraseAndRead :
    (withNv 5 15 0 0 false).nv.mode = 5 ∧ (withNv 6 15 0 0 false).nv.mode = 6 := by
  exact ⟨rfl, rfl⟩

theorem witness_RdSbusMovesOneBitOut :
    (withNv 1 0 0x8001 0 true).nv.pendingTransfer = true ∧ (withNv 1 0 0x8001 0 true).nv.mode = 1 := by
  exact ⟨rfl, rfl⟩

theorem witness_RdSbusNeutralWhenNothingPending :
    (withNv 1 0 1 0 false).nv.pendingTransfer = false ∧ (withNv 2 0 1 0 true).nv.mode ≠ 1 := by
  decide

theorem witness_DrainDeliversStrobedFrame :
    (withAux 1 true 0xFFFFFFFF).aux.strobed = true ∧ (withAux 1 false 0xFFFFFFFF).aux.strobed = false := by
  exact ⟨rfl, rfl⟩

theorem witness_AccumulatorIsBigEndianInArrivalOrder :
    State.reset.cfg.busBitsWf = true := by
  decide

theorem witness_ShiftInIsMostSignificantFirst :
    (withNv 2 0 0x8005 1 false).cfg.busBitsWf = true ∧ (withNv 2 0 0x8005 1 false).nv.mode = 2 ∧
      (withNv 2 0 0x8005 1 true).cfg.busBitsWf = true ∧ (withNv 2 0 0x8005 1 true).nv.mode = 2 := by
  decide

theorem witness_ShiftOutIsLeastSignificantFirst :
    (withNv 1 0 0x8005 1 true).cfg.busBitsWf = true ∧ (withNv 1 0 0x8005 1 true).nv.mode = 1 := by
  decide

theorem witness_SavedCellSurvivesPowerCycle :
    (withNv 3 15 0x0001 0 false).env.saveOutcome = .ok := by
  rfl

theorem witness_BlobHoldsCellsInAscendingOrder :
    (0 : Nat) < 16 ∧ (15 : Nat) < 16 := by
  decide

theorem witness_BlobRoundTripIgnoresExcess :
    Memory.wf [(0, 1), (15, 0x8000)] = true ∧ (List.replicate 31 (0 : Byte)).length < 32 := by
  decide

theorem witness_Rev16TurnsWordEndForEnd :
    (0 : Nat) < 16 ∧ (15 : Nat) < 16 := by
  decide

theorem witness_Ins4ReplacesFourBits :
    (0 : Nat) ≤ 12 ∧ (12 : Nat) ≤ 12 ∧ (15 : Nat) < 16 := by
  decide

theorem witness_GridPortWritesNibbleAndSetsBit5 :
    (11 : Nibble) ≠ 12 ∧ (13 : Nibble) ≠ 12 := by
  decide

theorem witness_SentinelReadingsAgreeWhereBits8To6Clear :
    (withDisplay 0xFFFF 0xFE3F).grid.extractLsb' 6 3 = 0 := by
  decide

end Sys2Proof.Tests
end

/-! The step of R8: what it takes off the list, what it runs, and what it leaves to the host (R6, R37, R58). -/

namespace Sys2Proof.Machine

open Sys2Proof

/-! ## What the next step serves -/

/-- The oldest request is served with the others still to come (R8). -/
theorem step_of_requests_cons {s : State} {r : Request} {rest : List Request} (h : s.requests = r :: rest) :
    step s = serve r (s.setRequests rest) := by
  simp only [step, serveNext, h]

/-- 16 bits stand for a transaction word (log 33). -/
theorem withFetchWord_transaction (s : State) (w : BitVec 10) :
    s.withFetchWord 16 w.toNat = placeWord s (.transaction w) := by
  simp [State.withFetchWord, placeTableWord, isModeFormat]

/-- 8 bits stand for a mode word (log 33). -/
theorem withFetchWord_mode (s : State) (m : Nibble) : s.withFetchWord 8 m.toNat = placeWord s (.mode m) := by
  simp [State.withFetchWord, placeTableWord, isModeFormat]

/-- A placed transaction word runs with the draws the state holds (log 16). -/
theorem step_placeWord_transaction (s : State) (w : BitVec 10) :
    step (placeWord s (.transaction w)) =
      exec (decode s.cfg (.transaction w)) { s with env := { s.env with nvData := none } } :=
  (step_of_requests_cons rfl).trans rfl

/-- A placed mode word runs as a bare NVSTEP, whose edge stage is idle (log 30). -/
theorem step_placeWord_mode (s : State) (m : Nibble) :
    step (placeWord s (.mode m)) =
      exec (decode s.cfg (.mode m))
        { s with nv := { s.nv with mode := m }, env := { s.env with nvData := none } } :=
  (step_of_requests_cons rfl).trans rfl

/-! ## What no operation takes from the host -/

/-- `t` has the parameters and the requests of `s`, and its events begin with those of `s`. -/
structure HostSideKept (s t : State) : Prop where
  cfg      : t.cfg = s.cfg
  requests : t.requests = s.requests
  outputs  : s.outputs <+: t.outputs

theorem HostSideKept.of_eq {s t : State} (hcfg : t.cfg = s.cfg) (hrequests : t.requests = s.requests)
    (houtputs : t.outputs = s.outputs) : HostSideKept s t :=
  ⟨hcfg, hrequests, [], by rw [houtputs, List.append_nil]⟩

theorem HostSideKept.refl (s : State) : HostSideKept s s := .of_eq rfl rfl rfl

theorem HostSideKept.trans {s t u : State} (h : HostSideKept s t) (g : HostSideKept t u) : HostSideKept s u :=
  ⟨g.cfg.trans h.cfg, g.requests.trans h.requests, h.outputs.trans g.outputs⟩

theorem hostSideKept_setNv (s : State) (n : Nvram) : HostSideKept s (s.setNv n) := .of_eq rfl rfl rfl

theorem hostSideKept_setAux (s : State) (a : AuxReceiver) : HostSideKept s (s.setAux a) := .of_eq rfl rfl rfl

theorem hostSideKept_memWrite (s : State) (a : Nibble) (v : Word) : HostSideKept s (memWrite a v s) :=
  .of_eq rfl rfl rfl

theorem hostSideKept_emit (s : State) (e : Event) : HostSideKept s (s.emit e) := ⟨rfl, rfl, _, rfl⟩

theorem hostSideKept_setPlate (s : State) (p : Word) : HostSideKept s (s.setPlate p) := .of_eq rfl rfl rfl

theorem hostSideKept_setGrid (s : State) (g : Word) : HostSideKept s (s.setGrid g) := .of_eq rfl rfl rfl

/-- The notification is one more event (R167). -/
theorem HostSideKept.notifyDisplay {s t : State} (h : HostSideKept s t) : HostSideKept s (notifyDisplay t) :=
  h.trans (hostSideKept_emit t _)

theorem hostSideKept_save (s : State) : HostSideKept s (save s) := by
  obtain ⟨st, es, hsave, -⟩ := save_spec s
  rw [hsave]
  exact ⟨rfl, rfl, _, rfl⟩

theorem hostSideKept_armWriteToRegister (data : Option Bit) (s : State) :
    HostSideKept s (armWriteToRegister data s) := by
  cases data with
  | none => exact .refl s
  | some b =>
    rw [armWriteToRegister]
    split
    · exact hostSideKept_setNv s _
    · exact .refl s

theorem hostSideKept_nvStep (clock data : Option Bit) (s : State) : HostSideKept s (nvStep clock data s) := by
  obtain ⟨n, m, st, es, hdispatch, -⟩ := nvDispatch_spec data (edgeStage clock s)
  rw [nvStep, hdispatch]
  exact ⟨rfl, rfl, _, rfl⟩

theorem hostSideKept_nvRead (s : State) : HostSideKept s (nvRead s) := by
  obtain ⟨n, hread, -⟩ := nvRead_spec s
  rw [hread]
  exact hostSideKept_setNv s n

/-- POWER_ON emits at most the report of a failed load (R180, R211). -/
theorem hostSideKept_powerOn (loadFails : Bool) (s : State) : HostSideKept s (powerOn loadFails s) := by
  rw [powerOn_spec]
  cases loadFails with
  | true => exact ⟨rfl, rfl, _, rfl⟩
  | false => exact .of_eq rfl rfl rfl

theorem hostSideKept_exec (i : Instr) (s t : State) (h : exec i s = .next t) : HostSideKept s t := by
  cases i <;> cases h
  case wrAddr => exact hostSideKept_setNv s _
  case wrMode value =>
    dsimp only
    split
    · exact (hostSideKept_setNv s _).trans (hostSideKept_nvStep _ _ _)
    · exact hostSideKept_setNv s _
  case wrPlate0 | wrPlate1 | wrPlate2 => exact (hostSideKept_setPlate s _).notifyDisplay
  case wrPlgr => exact ((hostSideKept_setPlate s _).trans (hostSideKept_setGrid _ _)).notifyDisplay
  case wrGridS12 => exact (hostSideKept_setGrid s _).notifyDisplay
  case wrGrid => exact ((hostSideKept_setGrid s _).trans (hostSideKept_setGrid _ _)).notifyDisplay
  case wrSbus => exact (hostSideKept_nvStep _ _ s).trans (hostSideKept_setAux _ _)
  case rdSbus => exact (hostSideKept_nvRead s).trans (hostSideKept_emit _ _)
  case rdIn => exact hostSideKept_emit s _
  case drain =>
    split
    · exact (hostSideKept_emit s _).trans (hostSideKept_setAux _ _)
    · exact .refl s
  case standby | read => exact hostSideKept_setNv s _
  case writeToRegister => exact hostSideKept_armWriteToRegister _ s
  case writeToAddress => exact (hostSideKept_memWrite s _ _).trans (hostSideKept_save _)
  case erase => exact hostSideKept_memWrite s _ _
  case wrNone | readToOutput | stationMemory | lastChannelMemory | inert => exact .refl s

/-- A step moves on to the later requests and leaves the rest of the host's side alone. -/
theorem hostSideKept_step (s t : State) (h : step s = .next t) :
    HostSideKept (s.setRequests s.requests.tail) t := by
  obtain ⟨hnone, rfl⟩ | ⟨f, rest, hpower, rfl⟩ | ⟨i, e, hexec, -⟩ := step_cases s t h
  · exact .of_eq rfl (by simp [hnone]) rfl
  · rw [hpower]
    exact hostSideKept_powerOn f _
  · obtain ⟨hcfg, hrequests, houtputs⟩ := hostSideKept_exec i _ t hexec
    exact ⟨hcfg, hrequests, houtputs⟩

/-! ## The obligations -/

/-- Settles O10: the requests and the events are the host's side of the state. -/
theorem stepTakesOneRequestAndAppendsEvents : Obligations.StepTakesOneRequestAndAppendsEvents := by
  intro s t h
  obtain ⟨-, hrequests, es, houtputs⟩ := hostSideKept_step s t h
  exact ⟨hrequests, es, houtputs.symm⟩

/-- Settles O16: the parameters are the host's side of the state. -/
theorem stepKeepsParameters : Obligations.StepKeepsParameters :=
  fun s t h => (hostSideKept_step s t h).cfg

/-- Settles O5, from what serving a transaction is. -/
theorem stepRunsDecodedTransaction : Obligations.StepRunsDecodedTransaction := by
  rintro s w x o rest _ hrequests rfl
  exact step_of_requests_cons hrequests

/-- Settles O7, one format at a time: the number gives its word back, and the placed word is served first. -/
theorem placedWordRunsNext : Obligations.PlacedWordRunsNext := by
  intro s w m
  rw [withFetchWord_transaction, withFetchWord_mode]
  exact ⟨step_placeWord_transaction s w, step_placeWord_mode s m⟩

/-- Settles O8: an empty list is the waiting case of the step. -/
theorem stepWaitsWithoutRequest : Obligations.StepWaitsWithoutRequest := by
  intro s hnone
  simp only [step, serveNext, hnone]

end Sys2Proof.Machine

/-! The elements of R20: what one operation leaves in each of them, which operation owns it (R34), and the invariants of
the memory and of the display registers (R26, R27, R36). -/

namespace Sys2Proof.Machine

open Sys2Proof

/-! ## What the NVRAM controller's operations keep -/

/-- A save changes no volatile element (R181). -/
@[simp] theorem save_frame (s : State) :
    (save s).nv = s.nv ∧ (save s).aux = s.aux ∧ (save s).plate = s.plate ∧ (save s).grid = s.grid := by
  obtain ⟨st, es, hsave, -⟩ := save_spec s
  simp only [hsave, and_self]

/-- WRITE_TO_ADDRESS changes the cells, the store and the events alone (R128). -/
@[simp] theorem armWriteToAddress_frame (s : State) :
    (armWriteToAddress s).nv = s.nv ∧ (armWriteToAddress s).aux = s.aux ∧ (armWriteToAddress s).plate = s.plate ∧
      (armWriteToAddress s).grid = s.grid :=
  save_frame (memWrite s.nv.address (rev16 s.nv.dataRegister) s)

/-- WRITE_TO_REGISTER changes only the data register and the pending flag, and clears the flag only by moving its bit
in (R127). -/
theorem armWriteToRegister_spec (data : Option Bit) (s : State) :
    ∃ n, armWriteToRegister data s = s.setNv n ∧ n.mode = s.nv.mode ∧ n.address = s.nv.address ∧
      n.clockPrevious = s.nv.clockPrevious ∧
      (s.nv.pendingTransfer = true → n.pendingTransfer = false →
        ∃ b, data = some b ∧ n.dataRegister = shiftIn16 s.nv.dataRegister b) := by
  cases data with
  | none => exact ⟨s.nv, rfl, rfl, rfl, rfl, by simp +contextual⟩
  | some b =>
    rw [armWriteToRegister]
    split
    · exact ⟨_, rfl, rfl, rfl, rfl, fun _ _ => ⟨b, rfl, rfl⟩⟩
    · exact ⟨s.nv, rfl, rfl, rfl, rfl, by simp +contextual⟩

/-- NVREAD clears the pending flag only by moving a bit out, in mode 1 (R134). -/
theorem nvRead_clears_pending (s : State) (hset : s.nv.pendingTransfer = true)
    (hclear : (nvRead s).nv.pendingTransfer = false) :
    s.nv.mode = 1 ∧ (nvRead s).nv.dataRegister = s.nv.dataRegister >>> 1 := by
  by_cases hready : outputReady s.nv = true
  · have hmode : s.nv.mode = 1 := by simpa [outputReady, hset] using hready
    exact ⟨hmode, by simp [nvRead, hready]⟩
  · simp [nvRead, hready, hset] at hclear

/-- The edge stage changes only the previous clock and the pending flag (R123). -/
@[simp] theorem edgeStage_frame (clock : Option Bit) (s : State) :
    (edgeStage clock s).nv.mode = s.nv.mode ∧ (edgeStage clock s).nv.address = s.nv.address ∧
      (edgeStage clock s).nv.dataRegister = s.nv.dataRegister ∧ (edgeStage clock s).cells = s.cells ∧
      (edgeStage clock s).store = s.store := by
  cases clock <;> simp [edgeStage, edgeNv]

/-- The edge stage clears no pending transfer (R123). -/
theorem edgeStage_keeps_pending (clock : Option Bit) (s : State) (h : s.nv.pendingTransfer = true) :
    (edgeStage clock s).nv.pendingTransfer = true := by
  cases clock <;> simp [edgeStage, edgeNv, edgePending, h]

/-- NVSTEP keeps the two latches (R34 (b)). -/
@[simp] theorem nvStep_latches (clock data : Option Bit) (s : State) :
    (nvStep clock data s).nv.mode = s.nv.mode ∧ (nvStep clock data s).nv.address = s.nv.address := by
  obtain ⟨n, m, st, es, hdispatch, hmode, haddress, -⟩ := nvDispatch_spec data (edgeStage clock s)
  simp [nvStep, hdispatch, hmode, haddress]

/-- NVSTEP changes the cells only in the modes 3 and 5 and the store only in mode 3 (R128, R130). -/
theorem nvStep_memory (clock data : Option Bit) (s : State) :
    ((nvStep clock data s).cells ≠ s.cells → s.nv.mode = 3 ∨ s.nv.mode = 5) ∧
      ((nvStep clock data s).store ≠ s.store → s.nv.mode = 3) := by
  obtain ⟨n, m, st, es, hdispatch, -, -, hcells, hstore, -⟩ := nvDispatch_spec data (edgeStage clock s)
  simpa [nvStep, hdispatch] using And.intro hcells hstore

/-- NVSTEP changes the previous clock only to its sample, or in mode 0 to 0 (R123, R125). -/
theorem nvStep_clockPrevious (clock data : Option Bit) (s : State) :
    (nvStep clock data s).nv.clockPrevious = clock.getD s.nv.clockPrevious ∨
      s.nv.mode = 0 ∧ (nvStep clock data s).nv.clockPrevious = 0 := by
  have hedge : (edgeStage clock s).nv.clockPrevious = clock.getD s.nv.clockPrevious := by cases clock <;> rfl
  simpa [nvStep, hedge] using (nvDispatch_flags data (edgeStage clock s)).2

/-- NVSTEP clears a pending transfer only by moving its data bit in, in mode 2 (R25, R127). -/
theorem nvStep_clears_pending (clock data : Option Bit) (s : State) (hset : s.nv.pendingTransfer = true)
    (hclear : (nvStep clock data s).nv.pendingTransfer = false) :
    s.nv.mode = 2 ∧ ∃ b, data = some b ∧ (nvStep clock data s).nv.dataRegister = shiftIn16 s.nv.dataRegister b := by
  simpa [nvStep] using (nvDispatch_flags data (edgeStage clock s)).1 (edgeStage_keeps_pending clock s hset) hclear

/-! ## What an operation leaves in the receiver and the display registers -/

/-- The receiver after an operation: fed by a P_SBUS write (R150), reset by a drain of a strobed frame (R151). -/
def auxAfter (c : Config) (a : AuxReceiver) : Instr → AuxReceiver
  | .wrSbus v => auxNext (strobeField c v) (clockField c v) (dataField c v) a
  | .drain _ _ => if a.strobed then { a with strobed := false, accumulator := 0 } else a
  | _ => a

/-- `plate` after an operation (R161 to R164). -/
def plateAfter (p : Word) : Instr → Word
  | .wrPlate0 v => ins4 p 0 v
  | .wrPlate1 v => ins4 p 4 v
  | .wrPlate2 v => ins4 p 8 v
  | .wrPlgr v => plgrPlate p v
  | _ => p

/-- `grid` after an operation (R164 to R166). -/
def gridAfter (g : Word) : Instr → Word
  | .wrPlgr v => plgrGrid g v
  | .wrGridS12 => ins4 g 5 1
  | .wrGrid v => ins4 (g ||| ((1 : Word) <<< 5)) (gridRemap v).shift (gridRemap v).value
  | _ => g

/-- An operation leaves in the receiver and the display registers what their own values and the parameters give; nothing
of the NVRAM enters. -/
theorem exec_receiver_display {i : Instr} {s t : State} (h : exec i s = .next t) :
    t.aux = auxAfter s.cfg s.aux i ∧ t.plate = plateAfter s.plate i ∧ t.grid = gridAfter s.grid i := by
  cases i <;> cases h
  case wrMode v =>
    obtain ⟨⟨haux, hplate, hgrid, -⟩, -⟩ := nvStep_frame none none (s.setNv { s.nv with mode := v })
    dsimp only
    split
    · exact ⟨haux, hplate, hgrid⟩
    · exact ⟨rfl, rfl, rfl⟩
  case wrSbus v =>
    obtain ⟨⟨haux, hplate, hgrid, -⟩, -⟩ := nvStep_frame (some (clockField s.cfg v)) (some (dataField s.cfg v)) s
    exact ⟨congrArg (auxNext _ _ _) haux, hplate, hgrid⟩
  case rdSbus =>
    obtain ⟨n, hread, -⟩ := nvRead_spec s
    rw [hread]
    exact ⟨rfl, rfl, rfl⟩
  case drain =>
    rw [auxAfter]
    split <;> exact ⟨rfl, rfl, rfl⟩
  case writeToRegister =>
    obtain ⟨n, harm, -⟩ := armWriteToRegister_spec s.env.nvData s
    rw [harm]
    exact ⟨rfl, rfl, rfl⟩
  case writeToAddress => exact (armWriteToAddress_frame s).2
  all_goals exact ⟨rfl, rfl, rfl⟩

/-- The receiver's owners (R34 (c)). -/
theorem auxAfter_of_other (c : Config) (a : AuxReceiver) (i : Instr) (hsbus : ∀ v, i ≠ .wrSbus v)
    (hdrain : ∀ p v, i ≠ .drain p v) : auxAfter c a i = a := by
  cases i
  case wrSbus v => exact absurd rfl (hsbus v)
  case drain p v => exact absurd rfl (hdrain p v)
  all_goals rfl

/-- The display registers' owners (R34 (d)). -/
theorem displayAfter_of_other (p g : Word) (i : Instr) (h : writesDisplay i = false) :
    plateAfter p i = p ∧ gridAfter g i = g := by
  cases i
  case wrPlate0 | wrPlate1 | wrPlate2 | wrPlgr | wrGrid | wrGridS12 => cases h
  all_goals exact ⟨rfl, rfl⟩

/-- No operation writes `plate[15:12]` (R161 to R164). -/
theorem plateAfter_getLsbD_high (p : Word) (i : Instr) (k : Nat) (hlow : 12 ≤ k) (hk : k < 16) :
    (plateAfter p i).getLsbD k = p.getLsbD k := by
  cases i
  case wrPlate0 | wrPlate1 | wrPlate2 => exact (ins4_getLsbD _ _ _ k hk).trans (if_neg (by omega))
  case wrPlgr v => exact (plgrPlate_getLsbD p v k hk).trans (if_neg (by omega))
  all_goals rfl

/-- A value placed by the remap sets none of the bits 15 to 6: the sentinel's one set bit goes to bit 5 (R77, R166). -/
theorem ins4_gridRemap_high (g : Word) (v : Nibble) (k : Nat) (hlow : 6 ≤ k) (hk : k < 16) (h : g.getLsbD k = false) :
    (ins4 g (gridRemap v).shift (gridRemap v).value).getLsbD k = false := by
  rw [gridRemap]
  split
  · have hbit : k - 5 ≠ 0 := by omega
    exact (ins4_getLsbD g 5 1 k hk).trans (by simp only [nibbleOne_getLsbD, hbit, h, decide_false, ite_self])
  · exact (ins4_getLsbD g 0 v k hk).trans ((if_neg (by omega)).trans h)

/-- No operation sets one of `grid[15:6]` (R164 to R166). -/
theorem gridAfter_getLsbD_high (g : Word) (i : Instr) (k : Nat) (hlow : 6 ≤ k) (hk : k < 16)
    (h : g.getLsbD k = false) : (gridAfter g i).getLsbD k = false := by
  cases i
  case wrPlgr v => exact ((plgrGrid_getLsbD g v k hk).trans (if_neg (by omega))).trans h
  case wrGridS12 => exact ins4_gridRemap_high g 12 k hlow hk h
  case wrGrid v =>
    refine ins4_gridRemap_high _ v k hlow hk ?_
    rw [BitVec.getLsbD_or, h, oneBit_getLsbD 5 k (by omega)]
    exact decide_eq_false (by omega)
  all_goals exact h

/-! ## What an operation does to the controller, the cells and the store -/

/-- All that an operation can do to the NVRAM's elements. -/
inductive NvramEffect (s : State) : Instr → State → Prop
  /-- It leaves the controller, the cells and the store as they were. -/
  | kept {i : Instr} {t : State} (hnv : t.nv = s.nv) (hcells : t.cells = s.cells) (hstore : t.store = s.store) :
      NvramEffect s i t
  | wrAddr (v : Nibble) : NvramEffect s (.wrAddr v) (s.setNv { s.nv with address := v })
  /-- WR_MODE where the step is off (R121). -/
  | modeLatched (v : Nibble) : NvramEffect s (.wrMode v) (s.setNv { s.nv with mode := v })
  /-- WR_MODE where the step is on (R121). -/
  | modeStepped (v : Nibble) (hon : s.cfg.nvStepOnModeWrite = true) :
      NvramEffect s (.wrMode v) (nvStep none none (s.setNv { s.nv with mode := v }))
  /-- WR_SBUS, whatever it leaves in the receiver (R103). -/
  | sampled (v : Nibble) (a : AuxReceiver) : NvramEffect s (.wrSbus v)
      ((nvStep (some (clockField s.cfg v)) (some (dataField s.cfg v)) s).setAux a)
  /-- RD_SBUS, whatever it answers (R104). -/
  | bitRead (v : Nibble) (e : Event) : NvramEffect s (.rdSbus v) ((nvRead s).emit e)
  | standby : NvramEffect s .standby (armStandby s)
  | writeToRegister : NvramEffect s .writeToRegister (armWriteToRegister s.env.nvData s)
  | writeToAddress : NvramEffect s .writeToAddress (armWriteToAddress s)
  | erase : NvramEffect s .erase (armErase s)
  | read : NvramEffect s .read (armRead s)

theorem exec_nvramEffect {i : Instr} {s t : State} (h : exec i s = .next t) : NvramEffect s i t := by
  cases i <;> cases h
  case wrAddr v => exact .wrAddr v
  case wrMode v =>
    dsimp only
    split
    next hon => exact .modeStepped v hon
    next => exact .modeLatched v
  case wrSbus v => exact .sampled v _
  case rdSbus v => exact .bitRead v _
  case drain => split <;> exact .kept rfl rfl rfl
  case standby => exact .standby
  case writeToRegister => exact .writeToRegister
  case writeToAddress => exact .writeToAddress
  case erase => exact .erase
  case read => exact .read
  all_goals exact .kept rfl rfl rfl

/-- The two latches' owners (R34 (b)). -/
theorem NvramEffect.latches {i : Instr} {s t : State} (h : NvramEffect s i t) :
    (t.nv.mode ≠ s.nv.mode → ∃ v, i = .wrMode v) ∧ (t.nv.address ≠ s.nv.address → ∃ v, i = .wrAddr v) := by
  cases h with
  | kept hnv => simp [hnv]
  | wrAddr | modeLatched | modeStepped | sampled | standby | writeToAddress => simp [armStandby]
  | erase | read => simp [armErase, memWrite, armRead]
  | bitRead =>
    obtain ⟨n, hread, hmode, haddress, -⟩ := nvRead_spec s
    simp [hread, hmode, haddress]
  | writeToRegister =>
    obtain ⟨n, harm, hmode, haddress, -⟩ := armWriteToRegister_spec s.env.nvData s
    simp [harm, hmode, haddress]

/-- The shift register's and the pending flag's owners (R34 (a)). -/
theorem exec_shift_kept {i : Instr} {s t : State} (h : exec i s = .next t) (hother : reachesNvSteps i = false) :
    t.nv.dataRegister = s.nv.dataRegister ∧ t.nv.pendingTransfer = s.nv.pendingTransfer := by
  cases exec_nvramEffect h with
  | kept hnv => simp [hnv]
  | wrAddr => exact ⟨rfl, rfl⟩
  | _ => cases hother

/-- The previous clock's owners (R24, R109, R125). -/
theorem NvramEffect.clockPrevious {i : Instr} {s t : State} (h : NvramEffect s i t)
    (hne : t.nv.clockPrevious ≠ s.nv.clockPrevious) :
    (∃ v, i = .wrSbus v ∧ (t.nv.clockPrevious = clockLine s v ∨ s.nv.mode = 0 ∧ t.nv.clockPrevious = 0)) ∨
      (i = .wrMode 0 ∧ s.cfg.nvStepOnModeWrite = true ∨ i = .standby) ∧ t.nv.clockPrevious = 0 := by
  cases h with
  | kept hnv => exact absurd (congrArg _ hnv) hne
  | sampled v => exact .inl ⟨v, rfl, nvStep_clockPrevious _ _ s⟩
  | modeStepped v hon =>
    obtain hsame | ⟨hmode, hzero⟩ := nvStep_clockPrevious none none (s.setNv { s.nv with mode := v })
    · exact absurd hsame hne
    · obtain rfl : v = 0 := hmode
      exact .inr ⟨.inl ⟨rfl, hon⟩, hzero⟩
  | standby => exact .inr ⟨.inr rfl, rfl⟩
  | bitRead =>
    obtain ⟨n, hread, -, -, hclock, -⟩ := nvRead_spec s
    simp [hread, hclock] at hne
  | writeToRegister =>
    obtain ⟨n, harm, -, -, hclock, -⟩ := armWriteToRegister_spec s.env.nvData s
    simp [harm, hclock] at hne
  | writeToAddress => simp at hne
  | wrAddr | modeLatched | erase | read => exact absurd rfl hne

/-- The cells' and the store's owners (R34 (e)). -/
theorem NvramEffect.memory {i : Instr} {s t : State} (h : NvramEffect s i t) :
    (t.cells ≠ s.cells →
      (runsDispatch i = true ∧ (t.nv.mode = 3 ∨ t.nv.mode = 5)) ∨ i = .writeToAddress ∨ i = .erase) ∧
    (t.store ≠ s.store → (runsDispatch i = true ∧ t.nv.mode = 3) ∨ i = .writeToAddress) := by
  cases h with
  | kept _ hcells hstore => simp [hcells, hstore]
  | sampled v => simpa [runsDispatch] using nvStep_memory _ _ s
  | modeStepped v => simpa [runsDispatch] using nvStep_memory none none (s.setNv { s.nv with mode := v })
  | bitRead =>
    obtain ⟨n, hread, -⟩ := nvRead_spec s
    simp [hread]
  | writeToRegister =>
    obtain ⟨n, harm, -⟩ := armWriteToRegister_spec s.env.nvData s
    simp [harm]
  | writeToAddress | erase => simp [armErase, memWrite]
  | wrAddr | modeLatched | standby | read => simp [armStandby, armRead]

/-- A pending transfer is cleared only by moving its bit (R25, R127, R134). -/
theorem NvramEffect.clears_pending {i : Instr} {s t : State} (h : NvramEffect s i t)
    (hset : s.nv.pendingTransfer = true) (hclear : t.nv.pendingTransfer = false) :
    (∃ v, i = .wrSbus v ∧ s.nv.mode = 2 ∧
      t.nv.dataRegister = shiftIn16 s.nv.dataRegister (dataField s.cfg v)) ∨
    (∃ v, i = .rdSbus v ∧ s.nv.mode = 1 ∧ t.nv.dataRegister = s.nv.dataRegister >>> 1) ∨
    (i = .writeToRegister ∧ ∃ b, s.env.nvData = some b ∧ t.nv.dataRegister = shiftIn16 s.nv.dataRegister b) := by
  cases h with
  | sampled v =>
    obtain ⟨hmode, b, hdata, hmoved⟩ := nvStep_clears_pending _ _ s hset hclear
    obtain rfl := Option.some.inj hdata
    exact .inl ⟨v, rfl, hmode, hmoved⟩
  | bitRead v => exact .inr (.inl ⟨v, rfl, nvRead_clears_pending s hset hclear⟩)
  | writeToRegister =>
    obtain ⟨n, harm, -, -, -, hmoved⟩ := armWriteToRegister_spec s.env.nvData s
    rw [harm] at hclear ⊢
    exact .inr (.inr ⟨rfl, hmoved hset hclear⟩)
  | modeStepped v =>
    obtain ⟨-, _, hnone, -⟩ := nvStep_clears_pending none none (s.setNv { s.nv with mode := v }) hset hclear
    cases hnone
  | kept hnv => simp [hnv, hset] at hclear
  | writeToAddress => simp [hset] at hclear
  | wrAddr | modeLatched | standby | erase | read => exact absurd (hset.symm.trans hclear) (by decide)

/-! ## The invariants -/

/-- A step keeps what neither the requests nor the draws touch and what a power-on and every operation keep (R8,
R211). -/
theorem step_keeps {P : State → Prop} (hhost : ∀ s rs e, P s → P { s with requests := rs, env := e })
    (hpower : ∀ f s, P s → P (powerOn f s)) (hexec : ∀ i s t, P s → exec i s = .next t → P t) {s t : State}
    (hs : P s) (h : step s = .next t) : P t := by
  obtain ⟨-, rfl⟩ | ⟨f, rest, -, rfl⟩ | ⟨i, e, hrun, -⟩ := step_cases s t h
  · exact hs
  · exact hpower f _ (hhost s rest s.env hs)
  · exact hexec i _ t (hhost s _ e hs) hrun

theorem memoryCanonical_powerOn (f : Bool) (s : State) (hs : MemoryCanonical s) : MemoryCanonical (powerOn f s) := by
  obtain ⟨-, hstore⟩ := hs
  rw [powerOn_spec]
  refine ⟨?_, hstore⟩
  cases f with
  | true => exact Memory.wf_nil
  | false =>
    cases hst : s.store with
    | none => exact Memory.wf_nil
    | some m => exact hstore m hst

theorem memoryCanonical_nvStep (clock data : Option Bit) (s : State) (hs : MemoryCanonical s) :
    MemoryCanonical (nvStep clock data s) := by
  obtain ⟨n, m, st, es, hdispatch, -, -, -, -, -, -, -, hkeeps⟩ := nvDispatch_spec data (edgeStage clock s)
  rw [nvStep, hdispatch]
  exact hkeeps (by simpa [MemoryCanonical] using hs)

theorem memoryCanonical_armWriteToAddress (s : State) (hs : MemoryCanonical s) :
    MemoryCanonical (armWriteToAddress s) := by
  obtain ⟨st, es, -, hsaved, harm⟩ := armWriteToAddress_spec s
  have hcells := Memory.wf_write _ _ (rev16 s.nv.dataRegister) s.nv.address.isLt hs.1
  rw [harm]
  exact ⟨hcells, savedAs_wf _ _ _ _ hsaved hcells⟩

theorem memoryCanonical_exec (i : Instr) (s t : State) (hs : MemoryCanonical s) (h : exec i s = .next t) :
    MemoryCanonical t := by
  cases exec_nvramEffect h with
  | kept _ hcells hstore =>
    rw [MemoryCanonical, hcells, hstore]
    exact hs
  | modeStepped v => exact memoryCanonical_nvStep none none _ hs
  | sampled v => exact memoryCanonical_nvStep _ _ s hs
  | bitRead =>
    obtain ⟨n, hread, -⟩ := nvRead_spec s
    rw [hread]
    exact hs
  | writeToRegister =>
    obtain ⟨n, harm, -⟩ := armWriteToRegister_spec s.env.nvData s
    rw [harm]
    exact hs
  | writeToAddress => exact memoryCanonical_armWriteToAddress s hs
  | erase => exact ⟨Memory.wf_write _ _ 0 s.nv.address.isLt hs.1, hs.2⟩
  | wrAddr | modeLatched | standby | read => exact hs

theorem displayUpperBitsClear_exec (i : Instr) (s t : State) (hs : DisplayUpperBitsClear s) (h : exec i s = .next t) :
    DisplayUpperBitsClear t := by
  obtain ⟨⟨hplate, hgrid⟩, hreset⟩ := hs
  obtain ⟨-, hplate', hgrid'⟩ := exec_receiver_display h
  rw [field_eq_zero_iff] at hplate hgrid
  rw [DisplayUpperBitsClear, hplate', hgrid', (hostSideKept_exec i s t h).cfg, field_eq_zero_iff, field_eq_zero_iff]
  exact ⟨⟨fun k hlow hk => (plateAfter_getLsbD_high _ i k hlow hk).trans (hplate k hlow hk),
    fun k hlow hk => gridAfter_getLsbD_high _ i k hlow hk (hgrid k hlow hk)⟩, hreset⟩

/-! ## The obligations of the elements -/

/-- Settles O12: a power-on reloads a canonical store or zero, and every operation keeps the form. -/
theorem stepKeepsMemoryCanonical : Obligations.StepKeepsMemoryCanonical :=
  fun _ _ hs h => step_keeps (fun _ _ _ hs => hs) memoryCanonical_powerOn memoryCanonical_exec hs h

/-- Settles O13: a power-on returns to reset values whose upper bits are clear, and every operation keeps them clear. -/
theorem stepKeepsDisplayUpperBitsClear : Obligations.StepKeepsDisplayUpperBitsClear := by
  refine fun _ _ hs h => step_keeps (fun _ _ _ hs => hs) (fun f s hs => ?_) displayUpperBitsClear_exec hs h
  obtain ⟨-, hreset⟩ := hs
  rw [powerOn_spec]
  exact ⟨hreset, hreset⟩

/-- Settles O17, element by element. -/
theorem elementsChangeOnlyByOwners : Obligations.ElementsChangeOnlyByOwners := by
  intro i s t h
  obtain ⟨haux, hplate, hgrid⟩ := exec_receiver_display h
  have heffect := exec_nvramEffect h
  obtain ⟨hmode, haddress⟩ := heffect.latches
  obtain ⟨hcells, hstore⟩ := heffect.memory
  refine ⟨fun hne => ?_, fun hne => ?_, heffect.clockPrevious, hmode, haddress, fun hne => ?_, fun hne => ?_, hcells,
    hstore⟩
  · by_contra hother
    exact hne (exec_shift_kept h (by simpa using hother)).1
  · by_contra hother
    exact hne (exec_shift_kept h (by simpa using hother)).2
  · by_contra hother
    obtain ⟨hsbus, hdrain⟩ := not_or.mp hother
    exact hne (haux.trans (auxAfter_of_other _ _ i (not_exists.mp hsbus) fun p v hi => hdrain ⟨p, v, hi⟩))
  · by_contra hother
    obtain ⟨hplate', hgrid'⟩ := displayAfter_of_other s.plate s.grid i (by simpa using hother)
    exact hne.elim (· (hplate.trans hplate')) (· (hgrid.trans hgrid'))

/-- Settles O18: the moved bit, read off the shifted register. -/
theorem pendingClearedOnlyByMovedBit : Obligations.PendingClearedOnlyByMovedBit := by
  intro i s t h hset hclear
  obtain ⟨v, rfl, hmode, hmoved⟩ | hout | ⟨rfl, b, hdata, hmoved⟩ := (exec_nvramEffect h).clears_pending hset hclear
  · refine .inl ⟨v, rfl, hmode, ?_⟩
    rw [hmoved, ← nibbleBit_getLsbD]
    exact shiftIn16_getLsbD _ _
  · exact .inr (.inl hout)
  · refine .inr (.inr ⟨rfl, b, hdata, ?_⟩)
    rw [hmoved]
    exact shiftIn16_getLsbD _ b

/-- Settles O22: both runs leave what the receiver, the display registers and the parameters give. -/
theorem receiverIgnoresNvram : Obligations.ReceiverIgnoresNvram := by
  intro i s t n m st h
  have hvalid : ∀ a b, i ≠ .invalid a b := by
    rintro a b rfl
    cases h
  obtain ⟨u, hu⟩ := exec_next i { s with nv := n, cells := m, store := st } hvalid
  obtain ⟨haux, hplate, hgrid⟩ := exec_receiver_display h
  obtain ⟨haux', hplate', hgrid'⟩ := exec_receiver_display hu
  exact ⟨u, hu, haux'.trans haux.symm, hplate'.trans hplate.symm, hgrid'.trans hgrid.symm⟩

/-- Settles O37: the receiver after a P_SBUS write, and after any operation but that and a drain. -/
theorem wrSbusFeedsReceiver : Obligations.WrSbusFeedsReceiver := by
  intro v s
  constructor
  · obtain ⟨haux, hplate, hgrid⟩ := exec_receiver_display (exec_wrSbus v s)
    exact ⟨_, exec_wrSbus v s, haux ▸ receiverAfter_auxNext v s, hplate, hgrid⟩
  · intro i t hsbus hdrain h
    exact (exec_receiver_display h).1.trans (auxAfter_of_other _ _ i hsbus hdrain)

/-- Settles O14: no cell is listed, no store is there, and the default parameters are admissible (R39). -/
theorem resetMeetsInvariants : Obligations.ResetMeetsInvariants :=
  ⟨⟨Memory.wf_nil, fun _ hnone => nomatch hnone⟩, by decide, by decide⟩

end Sys2Proof.Machine

/-! The persistent store: which operations save (R67, R128, R181), what a level action done twice leaves (R60), and the
bytes of the blob (R56, R180). -/

namespace Sys2Proof.Machine

open Sys2Proof

/-! ## The events of a save -/

/-- NVSTEP hands the cells to the store exactly in mode 3 (R124, R128). -/
theorem nvStep_flushes_iff (clock data : Option Bit) (s : State) :
    ∃ es, (nvStep clock data s).outputs = s.outputs ++ es ∧
      ((∃ e ∈ es, isFlush e = true) ↔ s.nv.mode = 3) := by
  obtain ⟨n, m, st, es, hdispatch, -, -, -, -, -, hflush, -⟩ := nvDispatch_spec data (edgeStage clock s)
  refine ⟨es, congrArg State.outputs hdispatch, ?_⟩
  simpa using hflush

/-- The WRITE_TO_ADDRESS arm hands the cells to the store (R128, R181). -/
theorem armWriteToAddress_flushes (s : State) :
    ∃ es, (armWriteToAddress s).outputs = s.outputs ++ es ∧ ∃ e ∈ es, isFlush e = true := by
  obtain ⟨st, es, -, hsaved, harm⟩ := armWriteToAddress_spec s
  exact ⟨es, congrArg State.outputs harm, (savedAs_events _ _ _ _ hsaved).1⟩

/-- The operations that reach neither the mode dispatch nor the WRITE_TO_ADDRESS arm flush nothing. -/
theorem exec_flushes_nothing {i : Instr} {s t : State} (h : exec i s = .next t) (hdispatch : runsDispatch i = false)
    (hstore : i ≠ .writeToAddress) : ∃ es, t.outputs = s.outputs ++ es ∧ ∀ e ∈ es, isFlush e = false := by
  cases i <;> cases h
  case wrMode | wrSbus => cases hdispatch
  case writeToAddress => exact absurd rfl hstore
  case wrPlate0 | wrPlate1 | wrPlate2 | wrPlgr | wrGridS12 | wrGrid | rdIn => exact ⟨_, rfl, by simp [isFlush]⟩
  case rdSbus =>
    obtain ⟨n, hread, -⟩ := nvRead_spec s
    rw [hread]
    exact ⟨_, rfl, by simp [isFlush]⟩
  case drain =>
    split
    · exact ⟨_, rfl, by simp [isFlush]⟩
    · exact ⟨[], by simp, by simp⟩
  case writeToRegister =>
    obtain ⟨n, harm, -⟩ := armWriteToRegister_spec s.env.nvData s
    exact ⟨[], by simp [harm], by simp⟩
  all_goals exact ⟨[], (List.append_nil _).symm, by simp⟩

/-- Settles O20: the dispatch flushes exactly in mode 3, the arm by itself always, and nothing else flushes. -/
theorem flushesOnlyInWriteToAddress : Obligations.FlushesOnlyInWriteToAddress := by
  intro i s t h
  by_cases hdispatch : runsDispatch i = true
  · cases i
    case wrSbus v =>
      cases h
      obtain ⟨es, houtputs, hflush⟩ := nvStep_flushes_iff (some (clockField s.cfg v)) (some (dataField s.cfg v)) s
      exact ⟨es, houtputs, by simpa using hflush⟩
    case wrMode v =>
      cases h
      dsimp only
      split
      next hon =>
        obtain ⟨es, houtputs, hflush⟩ := nvStep_flushes_iff none none (s.setNv { s.nv with mode := v })
        exact ⟨es, houtputs, by simpa [hon] using hflush⟩
      next hoff => exact ⟨[], by simp, by simp [hoff]⟩
    all_goals cases hdispatch
  · by_cases hstore : i = .writeToAddress
    · subst hstore
      cases h
      obtain ⟨es, houtputs, hflush⟩ := armWriteToAddress_flushes s
      exact ⟨es, houtputs, by simpa using hflush⟩
    · obtain ⟨es, houtputs, hnone⟩ := exec_flushes_nothing h (by simpa using hdispatch) hstore
      refine ⟨es, houtputs, iff_of_false (by simpa using hnone) ?_⟩
      rintro (⟨⟨v, rfl⟩, -⟩ | ⟨rfl, -⟩ | hi)
      · exact hdispatch rfl
      · exact hdispatch rfl
      · exact hstore hi

/-! ## A level action done twice -/

@[simp] theorem armWriteToAddress_cells (s : State) :
    (armWriteToAddress s).cells = s.cells.write s.nv.address.toNat (rev16 s.nv.dataRegister) := by
  obtain ⟨st, es, -, -, harm⟩ := armWriteToAddress_spec s
  rw [harm]

/-- Settles O24: each arm writes values that it leaves as they were. -/
theorem levelActionsIdempotent : Obligations.LevelActionsIdempotent := by
  rintro i s (rfl | rfl | rfl | rfl) <;> refine ⟨_, _, rfl, rfl, ?_⟩
  case inl => exact ⟨rfl, rfl, rfl, rfl, rfl⟩
  case inr.inl => simp [Memory.write_write]
  case inr.inr.inl => exact ⟨rfl, Memory.write_write s.cells s.nv.address.toNat 0, rfl, rfl, rfl⟩
  case inr.inr.inr => exact ⟨rfl, rfl, rfl, rfl, rfl⟩

/-! ## The bytes of the blob -/

theorem length_flatMap_range {α : Type} (f : Nat → List α) (k n : Nat) (hf : ∀ i, (f i).length = k) :
    ((List.range n).flatMap f).length = n * k := by
  simp [List.length_flatMap, hf]

/-- Lists of one length laid end to end: element `j` of the `i`-th stands at `k * i + j`. -/
theorem getElem?_flatMap_range {α : Type} (f : Nat → List α) (k n i j : Nat) (hf : ∀ i, (f i).length = k)
    (hi : i < n) (hj : j < k) : ((List.range n).flatMap f)[k * i + j]? = (f i)[j]? := by
  induction n with
  | zero => omega
  | succ n ih =>
    have hlength : ((List.range n).flatMap f).length = k * n := by rw [length_flatMap_range f k n hf, Nat.mul_comm]
    simp only [List.range_succ, List.flatMap_append, List.flatMap_singleton]
    by_cases hlast : i = n
    · subst hlast
      rw [List.getElem?_append_right (by omega), hlength, Nat.add_sub_cancel_left]
    · have hbound : k * (i + 1) ≤ k * n := Nat.mul_le_mul_left k (by omega)
      rw [Nat.mul_add_one] at hbound
      rw [List.getElem?_append_left (by omega), ih (by omega)]

@[simp] theorem cellBytes_length (o : ByteOrder) (w : Word) : (cellBytes o w).length = 2 := by cases o <;> rfl

/-- No header and no padding: 32 bytes (R56). -/
@[simp] theorem blobBytes_length (o : ByteOrder) (m : Memory) : (blobBytes o m).length = 32 :=
  length_flatMap_range _ 2 16 fun _ => cellBytes_length o _

/-- Cell `i` lies at the offsets `2i` and `2i + 1` (R56). -/
theorem blobBytes_getElem? (o : ByteOrder) (m : Memory) (i j : Nat) (hi : i < 16) (hj : j < 2) :
    (blobBytes o m)[2 * i + j]? = (cellBytes o (m.read i))[j]? :=
  getElem?_flatMap_range _ 2 16 i j (fun _ => cellBytes_length o _) hi hj

/-- Settles O52, offset by offset. -/
theorem blobHoldsCellsInAscendingOrder : Obligations.BlobHoldsCellsInAscendingOrder :=
  fun m o => ⟨blobBytes_length o m, fun i hi =>
    ⟨blobBytes_getElem? .little m i 0 hi (by decide), blobBytes_getElem? .little m i 1 hi (by decide),
      blobBytes_getElem? .big m i 0 hi (by decide), blobBytes_getElem? .big m i 1 hi (by decide)⟩⟩

/-- A cell is made of its two bytes, in either order. -/
theorem cellOfBytes_cellBytes (o : ByteOrder) (w : Word) :
    cellOfBytes o ((cellBytes o w)[0]?.getD 0) ((cellBytes o w)[1]?.getD 0) = w := by
  have hhalves : w.extractLsb' 8 8 ++ w.extractLsb' 0 8 = w :=
    (BitVec.extractLsb'_append_extractLsb'_eq_extractLsb' rfl).trans BitVec.extractLsb'_eq_self
  cases o <;> exact hhalves

/-- The cell that a blob's bytes at the offsets `2i` and `2i + 1` make (R56). -/
def blobCell (o : ByteOrder) (blob : List Byte) (i : Nat) : Word :=
  cellOfBytes o (blob.getD (2 * i) 0) (blob.getD (2 * i + 1) 0)

/-- A blob of at least 32 bytes holds a canonical memory with its cells (R180). -/
theorem cellsOfBlob_spec (o : ByteOrder) (blob : List Byte) (h : 32 ≤ blob.length) :
    ∃ m, cellsOfBlob o blob = some m ∧ m.wf = true ∧ ∀ i, i < 16 → m.read i = blobCell o blob i :=
  ⟨_, if_neg (not_lt.mpr h),
    Memory.wf_foldl_write id (blobCell o blob) _ _ (fun _ hi => List.mem_range.mp hi) Memory.wf_nil,
    fun i hi => Memory.read_foldl_write id (blobCell o blob) _ _ (by simpa using List.nodup_range) i
      (List.mem_range.mpr hi)⟩

/-- The bytes of a memory's blob make its cells, whatever follows them (R180). -/
theorem blobCell_blobBytes (o : ByteOrder) (m : Memory) (excess : List Byte) (i : Nat) (hi : i < 16) :
    blobCell o (blobBytes o m ++ excess) i = m.read i := by
  have hbyte : ∀ j, j < 2 → (blobBytes o m ++ excess).getD (2 * i + j) 0 = (cellBytes o (m.read i))[j]?.getD 0 := by
    intro j hj
    rw [List.getD_eq_getElem?_getD, List.getElem?_append_left (by rw [blobBytes_length]; omega),
      blobBytes_getElem? o m i j hi hj]
  calc blobCell o (blobBytes o m ++ excess) i
    _ = cellOfBytes o ((cellBytes o (m.read i))[0]?.getD 0) ((cellBytes o (m.read i))[1]?.getD 0) :=
      congrArg₂ (cellOfBytes o) (hbyte 0 (by decide)) (hbyte 1 (by decide))
    _ = m.read i := cellOfBytes_cellBytes o (m.read i)

/-- Settles O53: the memory read from the blob is canonical and reads like the one the blob was made from. -/
theorem blobRoundTripIgnoresExcess : Obligations.BlobRoundTripIgnoresExcess := by
  intro o m excess short
  refine ⟨fun hm => ?_, fun hshort => if_pos hshort⟩
  obtain ⟨n, hcells, hn, hread⟩ := cellsOfBlob_spec o (blobBytes o m ++ excess) (by simp)
  rw [hcells, Option.some_inj]
  refine Memory.eq_of_read n m hn hm fun a => ?_
  by_cases ha : a < 16
  · exact (hread a ha).trans (blobCell_blobBytes o m excess a ha)
  · rw [Memory.read_high n hn a (not_lt.mp ha), Memory.read_high m hm a (not_lt.mp ha)]

end Sys2Proof.Machine

/-! The serial order of the NVRAM controller: pulses shift a word in most significant bit first, clocked reads take it out
least significant bit first (R54, R126, R127, R134). -/

namespace Sys2Proof.Machine

open Sys2Proof

/-! ## One sample of the wire -/

/-- WR_SBUS with a nibble made of its lines, whatever bits the parameters give them (R75, R103). -/
theorem exec_wrSbus_lines (strobe data clock : Bit) (s : State) (hbits : s.cfg.busBitsWf = true) :
    exec (.wrSbus (sbusNibble s.cfg strobe data clock)) s =
      .next (auxStep strobe clock data (nvStep (some clock) (some data) s)) := by
  obtain ⟨hclock, hdata, hstrobe⟩ := sbusNibble_lines s.cfg strobe data clock hbits
  rw [exec_wrSbus, hclock, hdata, hstrobe]

/-- A sample in mode 2: with a transfer pending after the edge stage the data bit is shifted in, and none is left
pending (R123, R127). -/
theorem nvStep_writeToRegister (clock data : Bit) (s : State) (hmode : s.nv.mode = 2) :
    nvStep (some clock) (some data) s = s.setNv { s.nv with
      dataRegister := if edgePending s.nv clock then shiftIn16 s.nv.dataRegister data else s.nv.dataRegister
      pendingTransfer := false
      clockPrevious := clock } := by
  have harm : nvStep (some clock) (some data) s = armWriteToRegister (some data) (edgeStage (some clock) s) := by
    simp [nvStep, nvDispatch, hmode, decodeMode]
  rw [harm]
  cases hpending : edgePending s.nv clock <;>
    simp [armWriteToRegister, edgeStage, edgeNv, hpending, State.setNv]

/-- A sample in mode 1 is the edge stage alone (R123, R126). -/
theorem nvStep_readToOutput (clock data : Bit) (s : State) (hmode : s.nv.mode = 1) :
    nvStep (some clock) (some data) s =
      s.setNv { s.nv with pendingTransfer := edgePending s.nv clock, clockPrevious := clock } := by
  have harm : nvStep (some clock) (some data) s = armReadToOutput (edgeStage (some clock) s) := by
    simp [nvStep, nvDispatch, hmode, decodeMode]
  exact harm

/-- A low clock raises nothing (R101, R123). -/
@[simp] theorem edgePending_low (n : Nvram) : edgePending n 0 = n.pendingTransfer := by
  simp [edgePending, rising]

/-- A high clock after a low one raises the flag in every mode but STANDBY (R101, R123). -/
theorem edgePending_rising (n : Nvram) (hmode : n.mode ≠ 0) (hlow : n.clockPrevious = 0) : edgePending n 1 = true := by
  have hactive : (n.mode != 0) = true := bne_iff_ne.mpr hmode
  rw [edgePending, hactive, (rising_iff _ _).mpr ⟨hlow, rfl⟩, Bool.and_self, Bool.or_true]

/-- The state that `PULSE b` leaves: a sample with the clock low, then one with the clock high (R85). -/
def afterPulse (b : Bit) (s : State) : State :=
  auxStep 0 1 b (nvStep (some 1) (some b) (auxStep 0 0 b (nvStep (some 0) (some b) s)))

theorem execList_pulseInstrs (b : Bit) (s : State) (hbits : s.cfg.busBitsWf = true) :
    execList (pulseInstrs s.cfg b) s = .next (afterPulse b s) := by
  have hcfg : (auxStep 0 0 b (nvStep (some 0) (some b) s)).cfg = s.cfg := (hostSideKept_nvStep _ _ s).cfg
  have hhigh := exec_wrSbus_lines 0 b 1 (auxStep 0 0 b (nvStep (some 0) (some b) s)) (hcfg ▸ hbits)
  rw [hcfg] at hhigh
  simp only [pulseInstrs, execList, exec_wrSbus_lines 0 b 0 s hbits, hhigh, afterPulse]

@[simp] theorem afterPulse_cfg (b : Bit) (s : State) : (afterPulse b s).cfg = s.cfg :=
  (hostSideKept_nvStep _ _ _).cfg.trans (hostSideKept_nvStep _ _ s).cfg

/-! ## Shifting in -/

/-- A pulse in mode 2 shifts its bit in with its second write, and with its first one too if a transfer was pending
(R127, R220). -/
theorem afterPulse_writeToRegister (b : Bit) (s : State) (hmode : s.nv.mode = 2) :
    (afterPulse b s).nv = { s.nv with
      dataRegister := shiftIn16 (if s.nv.pendingTransfer then shiftIn16 s.nv.dataRegister b else s.nv.dataRegister) b
      pendingTransfer := false
      clockPrevious := 1 } := by
  have hactive : s.nv.mode ≠ 0 := by rw [hmode]; decide
  rw [afterPulse, nvStep_writeToRegister 0 b s hmode, edgePending_low, nvStep_writeToRegister 1 b,
    edgePending_rising]
  · rfl
  · exact hactive
  · rfl
  · exact hmode

/-- As numbers: the bits come in most significant first, cut to the width (R54, R136). -/
theorem foldl_shiftIn16_toNat (bits : List Bit) (v : Word) :
    (bits.foldl shiftIn16 v).toNat = bits.foldl (fun n b => 2 * n + b.toNat) v.toNat % 2 ^ 16 := by
  induction bits using List.reverseRecOn with
  | nil => exact (Nat.mod_eq_of_lt v.isLt).symm
  | append_singleton bits b ih =>
    simp only [List.foldl_append, List.foldl_cons, List.foldl_nil, shiftIn16_toNat, ih]
    omega

/-- Pulses in mode 2 shift their bits in, one after another; a transfer pending at the start takes the first bit once
more (R127, R220). -/
theorem execList_pulses (bits : List Bit) (s : State) (hbits : s.cfg.busBitsWf = true) (hmode : s.nv.mode = 2) :
    ∃ t, execList (bits.flatMap (pulseInstrs s.cfg)) s = .next t ∧
      t.nv.pendingTransfer = (s.nv.pendingTransfer && bits.isEmpty) ∧
      t.nv.dataRegister =
        (if s.nv.pendingTransfer then bits.take 1 ++ bits else bits).foldl shiftIn16 s.nv.dataRegister := by
  induction bits generalizing s with
  | nil => exact ⟨s, rfl, by simp, by simp⟩
  | cons b rest ih =>
    have hnv := afterPulse_writeToRegister b s hmode
    obtain ⟨t, hrest, hpending, hregister⟩ := ih (afterPulse b s) (by simpa using hbits) (by simpa [hnv] using hmode)
    rw [afterPulse_cfg] at hrest
    refine ⟨t, ?_, by simp [hpending, hnv], ?_⟩
    · rw [List.flatMap_cons, execList_append _ _ _ _ (execList_pulseInstrs b s hbits), hrest]
    · rw [hregister, hnv]
      cases s.nv.pendingTransfer <;> rfl

/-- Settles O49: the shifted register, as a number. -/
theorem shiftInIsMostSignificantFirst : Obligations.ShiftInIsMostSignificantFirst := by
  intro bits s hbits hmode
  obtain ⟨t, hrun, hpending, hregister⟩ := execList_pulses bits s hbits hmode
  exact ⟨t, hrun, hpending, hregister ▸ foldl_shiftIn16_toNat _ _⟩

/-! ## Shifting out -/

/-- A pulse in mode 1 leaves a transfer pending and nothing else but its clock and what the receiver takes (R126). -/
theorem afterPulse_readToOutput (b : Bit) (s : State) (hmode : s.nv.mode = 1) :
    ∃ a, afterPulse b s = { s with nv := { s.nv with pendingTransfer := true, clockPrevious := 1 }, aux := a } := by
  have hactive : s.nv.mode ≠ 0 := by rw [hmode]; decide
  rw [afterPulse, nvStep_readToOutput 0 b s hmode, nvStep_readToOutput 1 b, edgePending_rising]
  · exact ⟨_, rfl⟩
  · exact hactive
  · rfl
  · exact hmode

/-- RD_SBUS with a bit ready answers it and shifts it out (R104, R134). -/
theorem exec_rdSbus_ready (v : Nibble) (s : State) (hready : outputReady s.nv = true) :
    exec (.rdSbus v) s = .next { s with
      nv := { s.nv with dataRegister := s.nv.dataRegister >>> 1, pendingTransfer := false }
      outputs := s.outputs ++
        [.readResponse (assembleResponse s.cfg s.env.extIn (lowBit s.nv.dataRegister))] } := by
  simp only [exec, execRdSbus, nvRead, nvReadBit, if_pos hready]
  rfl

/-- CLOCK_OUT in mode 1 answers the register's low bit and shifts it out (R126, R134). -/
theorem execList_clockOut (s : State) (hbits : s.cfg.busBitsWf = true) (hmode : s.nv.mode = 1) :
    ∃ t, execList (clockOutInstrs s.cfg) s = .next t ∧ (t.cfg = s.cfg ∧ t.env = s.env ∧ t.nv.mode = 1) ∧
      t.nv.dataRegister = s.nv.dataRegister >>> 1 ∧
      t.outputs = s.outputs ++ [.readResponse (assembleResponse s.cfg s.env.extIn (lowBit s.nv.dataRegister))] := by
  obtain ⟨a, hpulse⟩ := afterPulse_readToOutput 0 s hmode
  have hrun := execList_append _ [.rdSbus 0] s _ (execList_pulseInstrs 0 s hbits)
  rw [hpulse, execList, exec_rdSbus_ready 0 _ (by simp [outputReady, hmode])] at hrun
  exact ⟨_, hrun, ⟨rfl, rfl, hmode⟩, rfl, rfl⟩

theorem lowBit_ushiftRight (v : Word) (k : Nat) : lowBit (v >>> k) = BitVec.ofBool (v.getLsbD k) := by
  apply BitVec.eq_of_getLsbD_eq
  intro i hi
  obtain rfl : i = 0 := by omega
  simp [lowBit]

/-- n times CLOCK_OUT in mode 1 (R54, R223). -/
theorem execList_clockOuts (n : Nat) (s : State) (hbits : s.cfg.busBitsWf = true) (hmode : s.nv.mode = 1) :
    ∃ t, execList ((List.range n).flatMap (fun _ => clockOutInstrs s.cfg)) s = .next t ∧
      (t.cfg = s.cfg ∧ t.env = s.env ∧ t.nv.mode = 1) ∧ t.nv.dataRegister = s.nv.dataRegister >>> n ∧
      t.outputs = s.outputs ++ (List.range n).map (fun k =>
        Event.readResponse (assembleResponse s.cfg s.env.extIn (BitVec.ofBool (s.nv.dataRegister.getLsbD k)))) := by
  induction n with
  | zero => exact ⟨s, rfl, ⟨rfl, rfl, hmode⟩, by simp, by simp⟩
  | succ n ih =>
    obtain ⟨u, hrun, ⟨hcfg, henv, hmode'⟩, hregister, houtputs⟩ := ih
    obtain ⟨t, hlast, ⟨hcfg', henv', hmode''⟩, hregister', houtputs'⟩ := execList_clockOut u (hcfg ▸ hbits) hmode'
    refine ⟨t, ?_, ⟨hcfg'.trans hcfg, henv'.trans henv, hmode''⟩, ?_, ?_⟩
    · rw [List.range_succ, List.flatMap_append, execList_append _ _ _ _ hrun, List.flatMap_singleton, ← hcfg, hlast]
    · rw [hregister', hregister, BitVec.shiftRight_add]
    · rw [houtputs', houtputs, hcfg, henv, hregister, lowBit_ushiftRight, List.range_succ, List.map_append,
        List.append_assoc, List.map_singleton]

/-- Settles O50, by induction on the number of clocked reads. -/
theorem shiftOutIsLeastSignificantFirst : Obligations.ShiftOutIsLeastSignificantFirst := by
  intro n s hbits hmode
  obtain ⟨t, hrun, -, hregister, houtputs⟩ := execList_clockOuts n s hbits hmode
  exact ⟨t, hrun, hregister, houtputs⟩

end Sys2Proof.Machine

/-! Words and operations: what each kind of word decodes to, and that decoder and encoder undo each other
(R71, R73, R78, R81). -/

namespace Sys2Proof

/-! ## The decoding procedure -/

theorem ports_wf_of_wf {c : Config} (h : c.wf = true) : c.ports.wf = true :=
  (Bool.and_eq_true_iff.mp h).1

/-- The operation that a write of `v` to a named port is (R77). -/
def Port.writeInstr : Port → Nibble → Instr
  | .addr, v => .wrAddr v
  | .mode, v => .wrMode v
  | .plate0, v => .wrPlate0 v
  | .plate1, v => .wrPlate1 v
  | .plate2, v => .wrPlate2 v
  | .plgr, v => .wrPlgr v
  | .grid, v => if v = 12 then .wrGridS12 else .wrGrid v
  | .sbus, v => .wrSbus v

theorem writeInstr_grid_other {v : Nibble} (hv : v ≠ 12) : Port.grid.writeInstr v = .wrGrid v := if_neg hv

theorem decodeWrite_of_find {m : PortMap} {p : Nibble} {q : Port} (h : m.find p = some q) (v : Nibble) :
    decodeWrite m p v = q.writeInstr v := by
  cases q <;> simp [decodeWrite, h, Port.writeInstr]

theorem decodeWrite_unassigned {m : PortMap} {p : Nibble} (h : p ∉ m.selectors) (v : Nibble) :
    decodeWrite m p v = .wrNone p v := by
  simp [decodeWrite, (find_eq_none m p).mpr h]

section DecodeByKind

variable {c : Config} {w : BitVec 10}

theorem decode_kind_reserved (hk : kindField w = 3) :
    decode c (.transaction w) = .invalid (portField w) (valueField w) := by
  simp [decode, decodeTransaction, hk]

theorem decode_kind_drain (hk : kindField w = 2) :
    decode c (.transaction w) = .drain (portField w) (valueField w) := by
  simp [decode, decodeTransaction, hk]

theorem decode_kind_read_sbus (hk : kindField w = 1) (hp : portField w = c.ports.sbus) :
    decode c (.transaction w) = .rdSbus (valueField w) := by
  simp [decode, decodeTransaction, hk, hp]

theorem decode_kind_read_other (hk : kindField w = 1) (hp : portField w ≠ c.ports.sbus) :
    decode c (.transaction w) = .rdIn (portField w) (valueField w) := by
  simp [decode, decodeTransaction, hk, hp]

theorem decode_kind_write (hk : kindField w = 0) :
    decode c (.transaction w) = decodeWrite c.ports (portField w) (valueField w) := by
  simp [decode, decodeTransaction, hk]

theorem decode_write_unassigned (hk : kindField w = 0) (hp : portField w ∉ c.ports.selectors) :
    decode c (.transaction w) = .wrNone (portField w) (valueField w) :=
  (decode_kind_write hk).trans (decodeWrite_unassigned hp _)

/-- The map is injective, so the port that a selector belongs to is the one it finds (R73). -/
theorem decode_write_named (hc : c.wf = true) (q : Port) (hk : kindField w = 0)
    (hp : portField w = c.ports.selector q) : decode c (.transaction w) = q.writeInstr (valueField w) :=
  (decode_kind_write hk).trans (decodeWrite_of_find (hp ▸ find_selector c.ports (ports_wf_of_wf hc) q) _)

end DecodeByKind

/-- Settles O4: the kind, then the port, then the sentinel. -/
theorem decodingFollowsKindPortValue : Obligations.DecodingFollowsKindPortValue := by
  intro c w hc
  exact ⟨decode_kind_reserved, decode_kind_drain, decode_kind_read_sbus, decode_kind_read_other, decode_write_unassigned,
    decode_write_named hc .addr, decode_write_named hc .mode, decode_write_named hc .plate0,
    decode_write_named hc .plate1, decode_write_named hc .plate2, decode_write_named hc .plgr,
    fun hk hp hv => (decode_write_named hc .grid hk hp).trans (if_pos hv),
    fun hk hp hv => (decode_write_named hc .grid hk hp).trans (writeInstr_grid_other hv), decode_write_named hc .sbus⟩

/-! ## From an operation to its word and back -/

theorem decode_namedWriteWord {c : Config} (hc : c.wf = true) (q : Port) (v : Nibble) :
    decode c (.transaction (transactionWord 0 (c.ports.selector q) v)) = q.writeInstr v := by
  simpa using decode_write_named hc q (kindField_transactionWord 0 _ v) (portField_transactionWord 0 _ v)

/-- An inert mode keeps the three bits below its fixed one (R133). -/
theorem decodeMode_inertWord : ∀ low : BitVec 3, decodeMode ((1 : BitVec 1) ++ low) = .inert low := by
  decide

/-- Settles O1, operation by operation: a named write by its port, any other transaction by its kind, a mode by its
code. -/
theorem decodeOfEncodeGivesInstr : Obligations.DecodeOfEncodeGivesInstr := by
  intro c i hc hi
  cases i with
  | wrAddr v => exact decode_namedWriteWord hc .addr v
  | wrMode v => exact decode_namedWriteWord hc .mode v
  | wrPlate0 v => exact decode_namedWriteWord hc .plate0 v
  | wrPlate1 v => exact decode_namedWriteWord hc .plate1 v
  | wrPlate2 v => exact decode_namedWriteWord hc .plate2 v
  | wrPlgr v => exact decode_namedWriteWord hc .plgr v
  | wrGridS12 => exact decode_namedWriteWord hc .grid 12
  | wrGrid v =>
    have hv : v ≠ 12 := by simpa [Instr.wf] using hi
    exact (decode_namedWriteWord hc .grid v).trans (writeInstr_grid_other hv)
  | wrSbus v => exact decode_namedWriteWord hc .sbus v
  | wrNone p v =>
    have hp : p ∉ c.ports.selectors := by simpa [Instr.wf] using hi
    simpa [encode] using decode_write_unassigned (w := transactionWord 0 p v) (by simp) (by simpa using hp)
  | rdSbus v => simpa [encode] using decode_kind_read_sbus (w := transactionWord 1 c.ports.sbus v) (by simp) (by simp)
  | rdIn p v =>
    have hp : p ≠ c.ports.sbus := by simpa [Instr.wf] using hi
    simpa [encode] using decode_kind_read_other (w := transactionWord 1 p v) (by simp) (by simpa using hp)
  | drain p v => simpa [encode] using decode_kind_drain (c := c) (w := transactionWord 2 p v) (by simp)
  | invalid p v => simpa [encode] using decode_kind_reserved (c := c) (w := transactionWord 3 p v) (by simp)
  | inert low => exact decodeMode_inertWord low
  | standby | readToOutput | writeToRegister | writeToAddress | stationMemory | erase | read | lastChannelMemory => rfl

/-! ## From a word to its operation and back -/

/-- `i` is an operation that the parameters admit, and `w` is its word. -/
def Instr.SpelledBy (c : Config) (w : InstrWord) (i : Instr) : Prop := i.wf c = true ∧ encode c i = w

theorem transactionWord_of_kind {w : BitVec 10} {k : BitVec 2} (hk : kindField w = k) :
    transactionWord k (portField w) (valueField w) = w :=
  hk ▸ transactionWord_of_fields w

theorem writeInstr_spelledBy (c : Config) (q : Port) (v : Nibble) :
    (q.writeInstr v).SpelledBy c (.transaction (transactionWord 0 (c.ports.selector q) v)) := by
  cases q with
  | grid =>
    by_cases hv : v = 12
    · subst hv
      exact ⟨rfl, rfl⟩
    · rw [writeInstr_grid_other hv]
      exact ⟨by simpa [Instr.wf] using hv, rfl⟩
  | addr | mode | plate0 | plate1 | plate2 | plgr | sbus => exact ⟨rfl, rfl⟩

theorem decodeWrite_spelledBy (c : Config) (p v : Nibble) :
    (decodeWrite c.ports p v).SpelledBy c (.transaction (transactionWord 0 p v)) := by
  cases hf : c.ports.find p with
  | none =>
    have hp := (find_eq_none c.ports p).mp hf
    rw [decodeWrite_unassigned hp]
    exact ⟨by simpa [Instr.wf] using hp, rfl⟩
  | some q =>
    rw [decodeWrite_of_find hf, ← selector_of_find _ _ _ hf]
    exact writeInstr_spelledBy c q v

theorem decode_transaction_spelledBy (c : Config) (w : BitVec 10) :
    (decode c (.transaction w)).SpelledBy c (.transaction w) := by
  rcases kind_cases (kindField w) with hk | hk | hk | hk
  · rw [decode_kind_write hk]
    simpa only [transactionWord_of_kind hk] using decodeWrite_spelledBy c (portField w) (valueField w)
  · by_cases hp : portField w = c.ports.sbus
    · rw [decode_kind_read_sbus hk hp]
      exact ⟨rfl, by rw [encode, ← hp, transactionWord_of_kind hk]⟩
    · rw [decode_kind_read_other hk hp]
      exact ⟨by simpa [Instr.wf] using hp, by rw [encode, transactionWord_of_kind hk]⟩
  · rw [decode_kind_drain hk]
    exact ⟨rfl, by rw [encode, transactionWord_of_kind hk]⟩
  · rw [decode_kind_reserved hk]
    exact ⟨rfl, by rw [encode, transactionWord_of_kind hk]⟩

/-- Every latch content from 8 up is inert, its top bit fixed (R133). -/
theorem decodeMode_inert : ∀ w : Nibble, 8 ≤ w.toNat →
    ∃ low : BitVec 3, decodeMode w = .inert low ∧ (1 : BitVec 1) ++ low = w := by
  decide

theorem decode_mode_spelledBy (c : Config) (w : Nibble) : (decode c (.mode w)).SpelledBy c (.mode w) := by
  rcases decodeMode_cases w with ⟨rfl, -⟩ | ⟨rfl, -⟩ | ⟨rfl, -⟩ | ⟨rfl, -⟩ | ⟨rfl, -⟩ | ⟨rfl, -⟩ | ⟨rfl, -⟩ | ⟨rfl, -⟩ |
    ⟨hw, -⟩
  iterate 8 exact ⟨rfl, rfl⟩
  obtain ⟨low, hlow, rfl⟩ := decodeMode_inert w hw
  rw [decode, hlow]
  exact ⟨rfl, rfl⟩

/-- Settles O2, one format at a time; no word needs the parameters to be admissible. -/
theorem encodeOfDecodeGivesWord : Obligations.EncodeOfDecodeGivesWord := by
  intro c w _
  cases w with
  | transaction w => exact decode_transaction_spelledBy c w
  | mode w => exact decode_mode_spelledBy c w

/-! ## Words the spec prints -/

/-- Settles O3: the decoder run on each printed word. -/
theorem specVectorsDecode : Obligations.SpecVectorsDecode := by
  unfold Obligations.SpecVectorsDecode
  decide

end Sys2Proof

/-! The serial bus port: a P_SBUS write as the edge stage, the latched mode's arm and the receiver's sample, a P_SBUS read
as NVREAD's bit, and the ports without effect (R103 to R109). -/

namespace Sys2Proof.Machine

open Sys2Proof

/-! ## The two listeners -/

/-- The receiver takes the same sample after NVSTEP as before it (R108). -/
theorem auxStep_nvStep (strobe clock data : Bit) (c d : Option Bit) (s : State) :
    auxStep strobe clock data (nvStep c d s) = { nvStep c d s with aux := auxNext strobe clock data s.aux } := by
  obtain ⟨⟨haux, -⟩, -⟩ := nvStep_frame c d s
  rw [auxStep, haux]
  rfl

/-- Settles O21: NVSTEP neither changes nor sees the receiver. -/
theorem listenersCommute : Obligations.ListenersCommute := by
  intro strobe clock data s
  obtain ⟨-, hblind⟩ := nvStep_frame (some clock) (some data) s
  rw [auxStep_nvStep, ← hblind]
  rfl

/-! ## What does not see the receiver -/

theorem armWriteToRegister_aux (data : Option Bit) (s : State) (a : AuxReceiver) :
    armWriteToRegister data { s with aux := a } = { armWriteToRegister data s with aux := a } := by
  cases data with
  | none => rfl
  | some b => cases hpending : s.nv.pendingTransfer <;> simp [armWriteToRegister, hpending, State.setNv]

theorem nvRead_aux (s : State) (a : AuxReceiver) : nvRead { s with aux := a } = { nvRead s with aux := a } := by
  cases hready : outputReady s.nv <;> simp [nvRead, hready, State.setNv]

/-- With another receiver an operation that is no drain does the same, and leaves in the receiver what that one's
registers give (R108, R150, R154). -/
theorem exec_aux {i : Instr} {s t : State} (a : AuxReceiver) (hdrain : ∀ p v, i ≠ .drain p v)
    (h : exec i s = .next t) : exec i { s with aux := a } = .next { t with aux := auxAfter s.cfg a i } := by
  cases i <;> cases h
  case wrMode v =>
    obtain ⟨-, hblind⟩ := nvStep_frame none none (s.setNv { s.nv with mode := v })
    refine congrArg Host.Outcome.next ?_
    dsimp only
    split
    · exact hblind a
    · rfl
  case wrSbus v =>
    obtain ⟨-, hblind⟩ := nvStep_frame (some (clockField s.cfg v)) (some (dataField s.cfg v)) s
    refine congrArg Host.Outcome.next ((auxStep_nvStep _ _ _ _ _ _).trans ?_)
    rw [hblind, auxStep_nvStep]
    rfl
  case rdSbus => exact congrArg (fun u : State => Host.Outcome.next (u.emit _)) (nvRead_aux s a)
  case drain p v => exact absurd rfl (hdrain p v)
  case writeToRegister => exact congrArg _ (armWriteToRegister_aux s.env.nvData s a)
  case writeToAddress => exact congrArg _ (save_aux (memWrite s.nv.address (rev16 s.nv.dataRegister) s) a)
  all_goals rfl

/-- Settles O23: the other run's receiver is the one that the operation gives from the other registers. -/
theorem nothingOutsideDependsOnReceiverButByDrain : Obligations.NothingOutsideDependsOnReceiverButByDrain :=
  fun _ _ _ a hdrain h => ⟨_, exec_aux a hdrain h⟩

/-! ## The arm that the latch selects -/

section DispatchByMode

variable {s : State} (data : Option Bit)

theorem nvDispatch_standby (hmode : s.nv.mode = 0) : nvDispatch data s = armStandby s := by
  simp [nvDispatch, hmode, decodeMode]

theorem nvDispatch_writeToRegister (hmode : s.nv.mode = 2) : nvDispatch data s = armWriteToRegister data s := by
  simp [nvDispatch, hmode, decodeMode]

theorem nvDispatch_writeToAddress (hmode : s.nv.mode = 3) : nvDispatch data s = armWriteToAddress s := by
  simp [nvDispatch, hmode, decodeMode]

theorem nvDispatch_erase (hmode : s.nv.mode = 5) : nvDispatch data s = armErase s := by
  simp [nvDispatch, hmode, decodeMode]

theorem nvDispatch_read (hmode : s.nv.mode = 6) : nvDispatch data s = armRead s := by
  simp [nvDispatch, hmode, decodeMode]

/-- The modes 1, 4 and 7 to 15 have no effect of their own (R126, R129, R132, R133). -/
theorem nvDispatch_without_arm (h0 : s.nv.mode ≠ 0) (h2 : s.nv.mode ≠ 2) (h3 : s.nv.mode ≠ 3) (h5 : s.nv.mode ≠ 5)
    (h6 : s.nv.mode ≠ 6) : nvDispatch data s = s := by
  rw [nvDispatch]
  rcases decodeMode_cases s.nv.mode with ⟨h, -⟩ | ⟨-, hd⟩ | ⟨h, -⟩ | ⟨h, -⟩ | ⟨-, hd⟩ | ⟨h, -⟩ | ⟨h, -⟩ | ⟨-, hd⟩ |
    ⟨-, low, hd⟩
  · exact absurd h h0
  · rw [hd]; rfl
  · exact absurd h h2
  · exact absurd h h3
  · rw [hd]; rfl
  · exact absurd h h5
  · exact absurd h h6
  · rw [hd]; rfl
  · rw [hd]; rfl

end DispatchByMode

/-- In STANDBY no sample raises the flag, and the previous clock is forced to 0 whatever the sample (R123, R125). -/
theorem nvStep_standby (clock data : Option Bit) (s : State) (hmode : s.nv.mode = 0) :
    nvStep clock data s = s.setNv { s.nv with clockPrevious := 0 } := by
  have hdispatch : nvStep clock data s = armStandby (edgeStage clock s) :=
    nvDispatch_standby data (by simpa using hmode)
  rw [hdispatch]
  cases clock with
  | none => rfl
  | some c => simp [armStandby, edgeStage, edgeNv, edgePending, hmode, State.setNv]

theorem armWriteToRegister_pending (b : Bit) (s : State) (hpending : s.nv.pendingTransfer = true) :
    armWriteToRegister (some b) s =
      s.setNv { s.nv with dataRegister := shiftIn16 s.nv.dataRegister b, pendingTransfer := false } :=
  if_pos hpending

theorem armWriteToRegister_idle (data : Option Bit) (s : State) (hidle : s.nv.pendingTransfer = false) :
    armWriteToRegister data s = s := by
  cases data with
  | none => rfl
  | some b => exact if_neg (by simp [hidle])

/-! ## A P_SBUS write -/

/-- A P_SBUS write is NVSTEP on its sample, beside the receiver's registers (R103). -/
theorem exec_wrSbus_receiver (v : Nibble) (s : State) :
    ∃ a, ReceiverAfter s v a ∧ exec (.wrSbus v) s =
      .next { nvStep (some (clockField s.cfg v)) (some (dataField s.cfg v)) s with aux := a } :=
  ⟨_, receiverAfter_auxNext v s, (exec_wrSbus v s).trans (congrArg _ (auxStep_nvStep _ _ _ _ _ s))⟩

/-- What the edge stage of a P_SBUS write leaves outside STANDBY (R123). -/
def afterEdge (v : Nibble) (s : State) : State :=
  s.setNv { s.nv with clockPrevious := clockLine s v, pendingTransfer := s.nv.pendingTransfer || nvEdge s v }

/-- Outside STANDBY the latched mode's arm runs on what the edge stage has left (R122, R123). -/
theorem exec_wrSbus_active (v : Nibble) (s : State) (hactive : s.nv.mode ≠ 0) :
    ∃ a, ReceiverAfter s v a ∧ exec (.wrSbus v) s =
      .next { nvDispatch (some (dataField s.cfg v)) (afterEdge v s) with aux := a } := by
  obtain ⟨a, ha, hrun⟩ := exec_wrSbus_receiver v s
  rw [nvStep, edgeStage_some v s hactive] at hrun
  exact ⟨a, ha, hrun⟩

/-- Settles O38, from what NVSTEP does in STANDBY. -/
theorem wrSbusInStandby : Obligations.WrSbusInStandby := by
  intro v s hmode
  obtain ⟨a, ha, hrun⟩ := exec_wrSbus_receiver v s
  rw [nvStep_standby _ _ s hmode] at hrun
  exact ⟨a, ha, hrun⟩

/-- Settles O39: the edge stage is all that is left of NVSTEP. -/
theorem wrSbusInModesWithoutArm : Obligations.WrSbusInModesWithoutArm := by
  intro v s h0 h2 h3 h5 h6
  obtain ⟨a, ha, hrun⟩ := exec_wrSbus_active v s h0
  rw [nvDispatch_without_arm (s := afterEdge v s) _ h0 h2 h3 h5 h6] at hrun
  exact ⟨a, ha, hrun⟩

/-- Settles O40: the arm finds the flag that the edge stage has left, set or clear. -/
theorem wrSbusInWriteToRegister : Obligations.WrSbusInWriteToRegister := by
  intro v s hmode
  obtain ⟨a, ha, hrun⟩ := exec_wrSbus_active v s (by simp [hmode])
  rw [nvDispatch_writeToRegister (s := afterEdge v s) _ hmode] at hrun
  refine ⟨a, ha, fun hpending => ?_, fun hidle => ?_⟩
  · rw [armWriteToRegister_pending _ (afterEdge v s) hpending] at hrun
    refine ⟨_, ?_, hrun⟩
    rw [← nibbleBit_getLsbD]
    exact shiftIn16_getLsbD _ _
  · obtain ⟨hflag, -⟩ := Bool.or_eq_false_iff.mp hidle
    rw [armWriteToRegister_idle _ (afterEdge v s) hidle, afterEdge, hidle, ← hflag] at hrun
    exact hrun

/-- Settles O41: the edge stage changes nothing that the arm stores or saves. -/
theorem wrSbusInWriteToAddress : Obligations.WrSbusInWriteToAddress := by
  intro v s hmode
  obtain ⟨a, ha, hrun⟩ := exec_wrSbus_active v s (by simp [hmode])
  obtain ⟨st, es, hstored, hsaved, harm⟩ := armWriteToAddress_spec (afterEdge v s)
  rw [nvDispatch_writeToAddress (s := afterEdge v s) _ hmode, harm] at hrun
  exact ⟨a, _, st, es, ha, hstored, hsaved, hrun⟩

/-- Settles O42, one mode at a time; the edge stage changes neither the address nor the cells. -/
theorem wrSbusInEraseAndRead : Obligations.WrSbusInEraseAndRead := by
  intro v s
  constructor
  · intro hmode
    obtain ⟨a, ha, hrun⟩ := exec_wrSbus_active v s (by simp [hmode])
    rw [nvDispatch_erase (s := afterEdge v s) _ hmode] at hrun
    exact ⟨a, _, ha, erased_write s, hrun⟩
  · intro hmode
    obtain ⟨a, ha, hrun⟩ := exec_wrSbus_active v s (by simp [hmode])
    rw [nvDispatch_read (s := afterEdge v s) _ hmode] at hrun
    exact ⟨a, ha, hrun⟩

/-! ## A P_SBUS read -/

theorem outputReady_iff (n : Nvram) : outputReady n = true ↔ n.pendingTransfer = true ∧ n.mode = 1 := by
  simp [outputReady]

theorem lowBit_getLsbD (v : Word) : (lowBit v).getLsbD 0 = v.getLsbD 0 := by
  simp [lowBit]

/-- RD_SBUS with no bit ready answers the neutral 0 and moves nothing (R104, R134, R193). -/
theorem exec_rdSbus_neutral (v : Nibble) (s : State) (hready : ¬ outputReady s.nv = true) :
    exec (.rdSbus v) s = .next { s with
      outputs := s.outputs ++ [.readResponse (assembleResponse s.cfg s.env.extIn 0)] } := by
  simp only [exec, execRdSbus, nvRead, nvReadBit, if_neg hready]
  rfl

/-- Settles O43: the response and the shifted register, bit by bit. -/
theorem rdSbusMovesOneBitOut : Obligations.RdSbusMovesOneBitOut := by
  intro v s hpending hmode
  refine ⟨_, _, fun k hk => ?_, ?_, fun k hk => ?_, exec_rdSbus_ready v s ((outputReady_iff _).mpr ⟨hpending, hmode⟩)⟩
  · rw [assembleResponse_getLsbD _ _ _ k hk, lowBit_getLsbD]
  · simp
  · rw [BitVec.getLsbD_ushiftRight, Nat.add_comm]

/-- Settles O44: the neutral response, bit by bit. -/
theorem rdSbusNeutralWhenNothingPending : Obligations.RdSbusNeutralWhenNothingPending := by
  intro v s hnone
  have hready : ¬ outputReady s.nv = true := by
    rw [outputReady_iff]
    rintro ⟨hpending, hmode⟩
    simp [hpending, hmode] at hnone
  exact ⟨_, fun k hk => assembleResponse_getLsbD _ _ _ k hk, exec_rdSbus_neutral v s hready⟩

/-! ## The bare NVSTEP, and the words without effect -/

/-- Settles O6: a bare NVSTEP is served as the latched mode's operation after an idle edge stage. -/
theorem stepRunsLatchedMode : Obligations.StepRunsLatchedMode := by
  rintro s o rest _ hrequests rfl
  exact step_of_requests_cons hrequests

/-- Settles O45: each of the two arms is its whole effect. -/
theorem otherPortsHaveNoEffect : Obligations.OtherPortsHaveNoEffect :=
  fun _ _ _ => ⟨rfl, rfl⟩

/-- Settles O46: the arm of INVALID is the refusal. -/
theorem reservedKindRefused : Obligations.ReservedKindRefused :=
  fun _ _ _ => rfl

end Sys2Proof.Machine

/-! The NVRAM controller: what each mode row does by itself, the same rows inside NVSTEP, and the two latches (R120 to
R135). -/

namespace Sys2Proof.Machine

open Sys2Proof

/-! ## The mode rows, each arm by itself -/

/-- Settles O31: none of the four arms moves anything. -/
theorem modesWithoutArmChangeNothing : Obligations.ModesWithoutArmChangeNothing :=
  fun _ _ => ⟨rfl, rfl, rfl, rfl⟩

/-- Settles O30: the arm by itself, and what NVSTEP does in STANDBY. -/
theorem standbyForcesClockPreviousZero : Obligations.StandbyForcesClockPreviousZero :=
  fun clock data s => ⟨rfl, nvStep_standby clock data s⟩

/-- Settles O32: the arm with a transfer pending and a data bit, and without one of the two. -/
theorem writeToRegisterShiftsDataIn : Obligations.WriteToRegisterShiftsDataIn := by
  refine fun s => ⟨fun b hpending hdata => ?_, fun hnone => congrArg Host.Outcome.next ?_⟩
  · refine ⟨_, shiftIn16_getLsbD s.nv.dataRegister b, congrArg Host.Outcome.next ?_⟩
    rw [hdata]
    exact armWriteToRegister_pending b s hpending
  · obtain hidle | hdata := hnone
    · exact armWriteToRegister_idle s.env.nvData s hidle
    · rw [hdata]
      rfl

/-- Settles O33: the reversed store and the save that the arm is made of. -/
theorem writeToAddressStoresReversedAndSaves : Obligations.WriteToAddressStoresReversedAndSaves := by
  intro s
  obtain ⟨st, es, hstored, hsaved, harm⟩ := armWriteToAddress_spec s
  exact ⟨_, st, es, hstored, hsaved, congrArg Host.Outcome.next harm⟩

/-- NVSTEP in ERASE is its edge stage and the erased cell (R123, R130). -/
theorem nvStep_erase (clock data : Option Bit) (s : State) (hmode : s.nv.mode = 5) :
    nvStep clock data s = { edgeStage clock s with cells := s.cells.write s.nv.address.toNat 0 } := by
  have hdispatch : nvStep clock data s = armErase (edgeStage clock s) := nvDispatch_erase data (by simpa using hmode)
  simp [hdispatch, armErase, memWrite, State.setCells]

/-- NVSTEP in READ is its edge stage and the copied cell (R123, R131). -/
theorem nvStep_read (clock data : Option Bit) (s : State) (hmode : s.nv.mode = 6) :
    nvStep clock data s = { edgeStage clock s with
      nv := { (edgeStage clock s).nv with dataRegister := s.cells.read s.nv.address.toNat } } := by
  have hdispatch : nvStep clock data s = armRead (edgeStage clock s) := nvDispatch_read data (by simpa using hmode)
  simp [hdispatch, armRead, memRead, State.setNv]

/-- Settles O34: the arm by itself and inside NVSTEP writes the same zero. -/
theorem eraseZeroesAddressedCell : Obligations.EraseZeroesAddressedCell :=
  fun clock data s => ⟨_, erased_write s, rfl, nvStep_erase clock data s⟩

/-- Settles O35: the arm by itself and inside NVSTEP copies the same cell. -/
theorem readCopiesCellVerbatim : Obligations.ReadCopiesCellVerbatim :=
  fun clock data s => ⟨rfl, nvStep_read clock data s⟩

/-! ## The rows are the arms of the dispatch -/

/-- The WRITE_TO_REGISTER arm sees its data argument alone, not the draws. -/
theorem armWriteToRegister_env (data : Option Bit) (s : State) (e : Env) :
    armWriteToRegister data { s with env := e } = { armWriteToRegister data s with env := e } := by
  cases data with
  | none => rfl
  | some b => cases hpending : s.nv.pendingTransfer <;> simp [armWriteToRegister, hpending, State.setNv]

/-- The row that the latch decodes to, given a data argument in the draws, does what the dispatch does with that
argument (R124; log 30, 31). -/
theorem exec_latchedRow (data : Option Bit) (s : State) :
    exec (decodeMode s.nv.mode) { s with env := { s.env with nvData := data } } =
      .next { nvDispatch data s with env := { s.env with nvData := data } } := by
  unfold nvDispatch
  rcases decodeMode_cases s.nv.mode with ⟨-, hd⟩ | ⟨-, hd⟩ | ⟨-, hd⟩ | ⟨-, hd⟩ | ⟨-, hd⟩ | ⟨-, hd⟩ | ⟨-, hd⟩ |
    ⟨-, hd⟩ | ⟨-, low, hd⟩ <;> rw [hd]
  case inr.inr.inl => exact congrArg Host.Outcome.next (armWriteToRegister_env data s _)
  case inr.inr.inr.inl =>
    exact congrArg Host.Outcome.next (save_env (memWrite s.nv.address (rev16 s.nv.dataRegister) s) data)
  all_goals rfl

/-- Settles O36: the edge stage keeps the latch and the draws, so the row it is followed by is the latched one. -/
theorem nvstepRunsLatchedModeRow : Obligations.NvstepRunsLatchedModeRow := by
  intro s clock data
  have hmode : (edgeStage clock s).nv.mode = s.nv.mode := (edgeStage_frame clock s).1
  have hrow := exec_latchedRow data (edgeStage clock s)
  rw [hmode] at hrow
  exact ⟨hrow, edgeStage_none s⟩

/-! ## The latches -/

/-- Settles O25: the arm is the assignment. -/
theorem wrAddrLatchesAddressOnly : Obligations.WrAddrLatchesAddressOnly :=
  fun _ _ => rfl

/-- Settles O26: the step is off. -/
theorem wrModeWithoutStepLatchesOnly : Obligations.WrModeWithoutStepLatchesOnly :=
  fun _ _ hoff => congrArg Host.Outcome.next (if_neg (by simp [hoff]))

/-- With the step on, WR_MODE is the latch and then the new mode's arm, without data; the edge stage is idle (R121,
R123; log 7, 8). -/
theorem exec_wrMode_step (v : Nibble) (s : State) (hon : s.cfg.nvStepOnModeWrite = true) :
    exec (.wrMode v) s = .next (nvDispatch none { s with nv := { s.nv with mode := v } }) :=
  congrArg Host.Outcome.next (if_pos hon)

/-- Settles O27: no arm runs, or one that without data moves nothing. -/
theorem wrModeToModeWithoutLevelAction : Obligations.WrModeToModeWithoutLevelAction := by
  intro v s hon h0 h3 h5 h6
  rw [exec_wrMode_step v s hon]
  refine congrArg Host.Outcome.next ?_
  by_cases h2 : v = 2
  · exact nvDispatch_writeToRegister none h2
  · exact nvDispatch_without_arm none h0 h2 h3 h5 h6

/-- Settles O28: each of the three arms on the new latch. -/
theorem wrModeToStandbyEraseRead : Obligations.WrModeToStandbyEraseRead := by
  intro s hon
  refine ⟨?_, ⟨_, erased_write s, ?_⟩, ?_⟩ <;> rw [exec_wrMode_step _ s hon]
  · exact congrArg Host.Outcome.next (nvDispatch_standby none rfl)
  · exact congrArg Host.Outcome.next (nvDispatch_erase none rfl)
  · exact congrArg Host.Outcome.next (nvDispatch_read none rfl)

/-- Settles O29: the WRITE_TO_ADDRESS arm on the new latch, which neither its store nor its save sees. -/
theorem wrModeToWriteToAddress : Obligations.WrModeToWriteToAddress := by
  intro s hon
  obtain ⟨st, es, hstored, hsaved, harm⟩ := armWriteToAddress_spec { s with nv := { s.nv with mode := 3 } }
  refine ⟨_, st, es, hstored, hsaved, ?_⟩
  rw [exec_wrMode_step 3 s hon, nvDispatch_writeToAddress none rfl, harm]

/-! ## The bit reversal -/

/-- Settles O54: bit by bit, from the library's involution, and the reversal run on each printed word. -/
theorem rev16TurnsWordEndForEnd : Obligations.Rev16TurnsWordEndForEnd :=
  ⟨rev16_getLsbD, fun _ => BitVec.reverse_reverse_eq, by decide, by decide, by decide, by decide⟩

end Sys2Proof.Machine

/-! The auxiliary receiver: pulses collect their bits in the accumulator, a drain delivers it (R150 to R153). -/

namespace Sys2Proof.Machine

open Sys2Proof

/-! ## Collecting -/

/-- A pulse shifts its bit into the accumulator, in every mode and whatever the line was before: its first write takes
the clock low without an edge, its second is the rising edge (R85, R150, R152). -/
theorem afterPulse_aux (b : Bit) (s : State) :
    (afterPulse b s).aux =
      { accumulator := shiftIn32 s.aux.accumulator b, strobed := false, clockPrevious := 1 } := by
  have hlow : auxNext 0 0 b s.aux = { accumulator := s.aux.accumulator, strobed := false, clockPrevious := 0 } :=
    auxNext_steady 0 0 b s.aux (by simp [rising])
  rw [afterPulse, auxStep_nvStep, auxStep_nvStep, hlow]
  exact auxNext_rising 0 1 b _ ((rising_iff _ _).mpr ⟨rfl, rfl⟩)

/-- Pulses from any state, in every mode: the accumulator as a number, the last pulse's bit lowest (R153). -/
theorem execList_pulses_accumulator (bits : List Bit) (s : State) (hbits : s.cfg.busBitsWf = true) :
    ∃ t, execList (bits.flatMap (pulseInstrs s.cfg)) s = .next t ∧ t.cfg = s.cfg ∧
      t.aux.accumulator.toNat = bits.foldl (fun n b => 2 * n + b.toNat) s.aux.accumulator.toNat % 2 ^ 32 := by
  induction bits using List.reverseRecOn with
  | nil => exact ⟨s, rfl, rfl, (Nat.mod_eq_of_lt s.aux.accumulator.isLt).symm⟩
  | append_singleton bits b ih =>
    obtain ⟨u, hrun, hcfg, hacc⟩ := ih
    refine ⟨afterPulse b u, ?_, (afterPulse_cfg b u).trans hcfg, ?_⟩
    · rw [List.flatMap_append, execList_append _ _ _ _ hrun, List.flatMap_singleton, ← hcfg,
        execList_pulseInstrs b u (hcfg ▸ hbits)]
    · rw [afterPulse_aux, shiftIn32_toNat, hacc, List.foldl_append, List.foldl_cons, List.foldl_nil]
      omega

/-- Settles O48: the run of the pulses, without the parameters it keeps. -/
theorem accumulatorIsBigEndianInArrivalOrder : Obligations.AccumulatorIsBigEndianInArrivalOrder := by
  intro bits s hbits
  obtain ⟨t, hrun, -, hacc⟩ := execList_pulses_accumulator bits s hbits
  exact ⟨t, hrun, hacc⟩

/-! ## Delivering -/

/-- Settles O47: the two branches of the drain. -/
theorem drainDeliversStrobedFrame : Obligations.DrainDeliversStrobedFrame := by
  intro p v s
  constructor
  · intro hstrobed
    exact congrArg Host.Outcome.next (if_pos hstrobed)
  · intro hclear
    exact congrArg Host.Outcome.next (if_neg (Bool.eq_false_iff.mp hclear))

end Sys2Proof.Machine

/-! The display register builder: that nothing clears `grid[5]` (R169), the composer's notification (R167), and what the
ports do to each bit of `plate` and `grid` (R160 to R166). -/

namespace Sys2Proof.Machine

open Sys2Proof

/-! ## The bit that nothing clears -/

/-- A display write leaves `grid[5]` set: the combined port writes bit 4 alone, the grid port's nibble ends below bit 5,
and the sentinel puts its one set bit there (R164 to R166, R169). -/
theorem gridAfter_keeps_bit5 (s : State) (i : Instr) (h : s.grid.getLsbD 5 = true) :
    (gridAfter s.grid i).getLsbD 5 = true := by
  cases i
  case wrPlgr v => exact (plgrGrid_getLsbD s.grid v 5 (by decide)).trans h
  case wrGridS12 => exact placeGrid_getLsbD 12 s 5 (by decide)
  case wrGrid v =>
    have hplaced := placeGrid_getLsbD v (forceGridBit5 s) 5 (by decide)
    exact hplaced.trans (by simp [forceGridBit5_getLsbD])
  all_goals exact h

/-- Settles O15: a step waits, or runs an operation, and none clears the bit. -/
theorem gridBit5StaysSetUntilPowerOn : Obligations.GridBit5StaysSetUntilPowerOn := by
  intro s t hset hnoPower h
  obtain ⟨-, rfl⟩ | ⟨f, rest, hrequests, -⟩ | ⟨i, e, hexec, -⟩ := step_cases s t h
  · exact hset
  · exact absurd (congrArg List.head? hrequests) (hnoPower f)
  · obtain ⟨-, -, hgrid⟩ := exec_receiver_display hexec
    rw [hgrid]
    exact gridAfter_keeps_bit5 s i hset

/-! ## The notification -/

/-- `t` has the events of `s` and after them none that notifies the composer. -/
def NotifiesNothing (s t : State) : Prop := ∃ es, t.outputs = s.outputs ++ es ∧ ∀ e ∈ es, isNotify e = false

theorem NotifiesNothing.of_outputs_eq {s t : State} (h : t.outputs = s.outputs) : NotifiesNothing s t :=
  ⟨[], by rw [h, List.append_nil], by simp⟩

theorem notifiesNothing_emit {s : State} {e : Event} (he : isNotify e = false) : NotifiesNothing s (s.emit e) :=
  ⟨[e], rfl, by simpa using he⟩

theorem notifiesNothing_nvStep (clock data : Option Bit) (s : State) : NotifiesNothing s (nvStep clock data s) := by
  obtain ⟨n, m, st, es, hdispatch, -, -, -, -, hsilent, -⟩ := nvDispatch_spec data (edgeStage clock s)
  exact ⟨es, congrArg State.outputs hdispatch, hsilent⟩

theorem notifiesNothing_armWriteToAddress (s : State) : NotifiesNothing s (armWriteToAddress s) := by
  obtain ⟨st, es, -, hsaved, harm⟩ := armWriteToAddress_spec s
  exact ⟨es, congrArg State.outputs harm, (savedAs_events _ _ _ _ hsaved).2⟩

/-- An operation that writes no display register notifies nothing (R167). -/
theorem exec_notifiesNothing {i : Instr} {s t : State} (h : exec i s = .next t) (hother : writesDisplay i = false) :
    NotifiesNothing s t := by
  cases i <;> cases h
  case wrPlate0 | wrPlate1 | wrPlate2 | wrPlgr | wrGrid | wrGridS12 => cases hother
  case wrMode v =>
    dsimp only
    split
    · exact notifiesNothing_nvStep none none (s.setNv { s.nv with mode := v })
    · exact .of_outputs_eq rfl
  case wrSbus v => exact notifiesNothing_nvStep (some (clockField s.cfg v)) (some (dataField s.cfg v)) s
  case rdSbus =>
    obtain ⟨n, hread, -⟩ := nvRead_spec s
    rw [hread]
    exact notifiesNothing_emit (s := { s with nv := n }) rfl
  case rdIn => exact notifiesNothing_emit rfl
  case drain =>
    split
    · exact notifiesNothing_emit (e := .auxFrame s.aux.accumulator) rfl
    · exact .of_outputs_eq rfl
  case writeToRegister =>
    obtain ⟨n, harm, -⟩ := armWriteToRegister_spec s.env.nvData s
    rw [harm]
    exact .of_outputs_eq rfl
  case writeToAddress => exact notifiesNothing_armWriteToAddress s
  all_goals exact .of_outputs_eq rfl

/-- A display write appends one event, the notification with the registers as it leaves them (R167). -/
theorem exec_notifies_newPair {i : Instr} {s t : State} (h : exec i s = .next t) (hdisplay : writesDisplay i = true) :
    t.outputs = s.outputs ++ [.displayNotify t.plate t.grid 13 6] := by
  cases i
  case wrPlate0 | wrPlate1 | wrPlate2 | wrPlgr | wrGrid | wrGridS12 => cases h; rfl
  all_goals cases hdisplay

/-- Settles O19: a display write appends the notification alone, any other operation none. -/
theorem notifiesOncePerDisplayWrite : Obligations.NotifiesOncePerDisplayWrite := by
  intro i s t h
  cases hdisplay : writesDisplay i with
  | true => exact ⟨_, exec_notifies_newPair h hdisplay, rfl, by simp⟩
  | false =>
    obtain ⟨es, houtputs, hsilent⟩ := exec_notifiesNothing h hdisplay
    exact ⟨es, houtputs, by simpa using hsilent, fun e he hnotify => absurd hnotify (by simp [hsilent e he])⟩

/-! ## The words of the default map -/

theorem transactionWord_write : ∀ p v : Nibble, transactionWord 0 p v = p.setWidth 10 <<< 4 ||| v.setWidth 10 := by
  decide +kernel

/-- Under the default parameters a port's selector with the value below it is the word of that port's write (R71, R73;
the spec's D1, D2). -/
theorem decode_defaults_write (q : Port) (v : Nibble) :
    decode Config.defaults (.transaction ((PortMap.defaults.selector q).setWidth 10 <<< 4 ||| v.setWidth 10)) =
      q.writeInstr v := by
  rw [← transactionWord_write]
  exact decode_namedWriteWord (c := Config.defaults) (by decide) q v

/-! ## The ports bit by bit -/

/-- Settles O55: the formula is the definition, and the bits are the law of the insert. -/
theorem ins4ReplacesFourBits : Obligations.Ins4ReplacesFourBits :=
  fun r s v _ => ⟨rfl, ins4_getLsbD r s v⟩

/-- Settles O56: each port is an insert at its own shift. -/
theorem platePortsReplaceTheirNibble : Obligations.PlatePortsReplaceTheirNibble := by
  intro v s
  refine ⟨⟨decode_defaults_write .plate0 v, decode_defaults_write .plate1 v, decode_defaults_write .plate2 v⟩,
    ⟨ins4 s.plate 0 v, fun k hk => ?_, rfl⟩, ⟨ins4 s.plate 4 v, ins4_getLsbD s.plate 4 v, rfl⟩,
    ⟨ins4 s.plate 8 v, ins4_getLsbD s.plate 8 v, rfl⟩⟩
  simpa using ins4_getLsbD s.plate 0 v k hk

/-- Settles O57, from the laws of the two fields. -/
theorem plgrWritesThreePlateBitsAndOneGridBit : Obligations.PlgrWritesThreePlateBitsAndOneGridBit :=
  fun v s => ⟨plgrPlate s.plate v, plgrGrid s.grid v, decode_defaults_write .plgr v, plgrPlate_getLsbD s.plate v,
    plgrGrid_getLsbD s.grid v, rfl⟩

/-- Settles O58: the nibble is placed in the grid whose bit 5 has been forced. -/
theorem gridPortWritesNibbleAndSetsBit5 : Obligations.GridPortWritesNibbleAndSetsBit5 := by
  intro v s hv
  refine ⟨(placeGrid v (forceGridBit5 s)).grid,
    (decode_defaults_write .grid v).trans (writeInstr_grid_other hv), fun k hk => ?_, rfl⟩
  rw [placeGrid_getLsbD v _ k hk, if_neg hv, forceGridBit5_getLsbD]

/-- Settles O59, from the law of the placed sentinel. -/
theorem gridSentinelSetsBit5ClearsBits8To6 : Obligations.GridSentinelSetsBit5ClearsBits8To6 :=
  fun s => ⟨(placeGrid 12 s).grid, placeGrid_getLsbD 12 s, rfl⟩

/-- Where `grid[8:6]` is clear, placing the sentinel has nothing to clear and only sets bit 5 (R166; the spec's D19). -/
theorem placeGrid_sentinel_eq_forceGridBit5 (s : State) (hclear : s.grid.extractLsb' 6 3 = 0) :
    placeGrid 12 s = forceGridBit5 s := by
  have hgrid : (placeGrid 12 s).grid = (forceGridBit5 s).grid := by
    refine BitVec.eq_of_getLsbD_eq fun k hk => ?_
    rw [placeGrid_getLsbD 12 s k hk, if_pos rfl, forceGridBit5_getLsbD]
    by_cases hfield : 6 ≤ k ∧ k < 9
    · rw [if_pos hfield, (field_eq_zero_iff _ _ _).mp hclear k hfield.1 hfield.2]
    · rw [if_neg hfield]
  exact congrArg s.setGrid hgrid

/-- Settles O60: with the field clear the sentinel write is the plain setting of bit 5. -/
theorem sentinelReadingsAgreeWhereBits8To6Clear : Obligations.SentinelReadingsAgreeWhereBits8To6Clear :=
  fun s hclear => congrArg (Host.Outcome.next ∘ notifyDisplay) (placeGrid_sentinel_eq_forceGridBit5 s hclear)

end Sys2Proof.Machine

/-! The power cycle: what POWER_ON leaves in every element, and a saved cell read back after one (R180, R185, R211). -/

namespace Sys2Proof.Machine

open Sys2Proof

/-! ## Power-on as a step -/

/-- A power cycle at the head of the requests is POWER_ON with the others still to come (R8, R211). -/
theorem step_powerOn {s : State} {loadFails : Bool} {rest : List Request}
    (h : s.requests = .powerOn loadFails :: rest) : step s = .next (powerOn loadFails (s.setRequests rest)) :=
  step_of_requests_cons h

/-- Settles O11: the step is POWER_ON, whose law gives every element for a load that succeeds and for one that fails. -/
theorem powerOnRestoresResetValues : Obligations.PowerOnRestoresResetValues := by
  refine fun s rest => ⟨fun h => ?_, fun h => ?_⟩
  · rw [step_powerOn h, powerOn_spec]
    rfl
  · rw [step_powerOn h, powerOn_spec]
    rfl

/-! ## From the save to the load -/

/-- A save drawn to succeed leaves in the store the cells as they were written (R128, R181). -/
theorem armWriteToAddress_store_of_ok {s : State} (hok : s.env.saveOutcome = .ok) :
    (armWriteToAddress s).store = some (armWriteToAddress s).cells := by
  obtain ⟨st, es, -, ⟨image, -, hsaved⟩, harm⟩ := armWriteToAddress_spec s
  rw [hok] at hsaved
  obtain ⟨hstore, -⟩ := hsaved
  rw [harm, hstore]

/-- A load that succeeds takes every cell from the store (R180). -/
theorem powerOn_cells_of_store {s : State} {m : Memory} (h : s.store = some m) : (powerOn false s).cells = m :=
  congrArg (·.getD []) h

/-- Settles O51: the save leaves the cells in the store, the load brings them back, and the addressed one is the data
register reversed. -/
theorem savedCellSurvivesPowerCycle : Obligations.SavedCellSurvivesPowerCycle := by
  intro s hok
  have hback : (powerOn false { armWriteToAddress s with requests := [] }).cells = (armWriteToAddress s).cells :=
    powerOn_cells_of_store (armWriteToAddress_store_of_ok hok)
  refine ⟨_, _, _, rfl, step_powerOn rfl, rfl, fun a => congrArg (·.read a) hback, fun k hk => ?_⟩
  obtain ⟨hreversed, -⟩ := storedReversed_write s
  calc ((powerOn false { armWriteToAddress s with requests := [] }).cells.read s.nv.address.toNat).getLsbD (15 - k)
      = ((s.cells.write s.nv.address.toNat (rev16 s.nv.dataRegister)).read s.nv.address.toNat).getLsbD (15 - k) := by
        rw [hback, armWriteToAddress_cells]
    _ = s.nv.dataRegister.getLsbD k := hreversed k hk

end Sys2Proof.Machine

/-! Completion: an operation, a request and a step answer a next state, but for the reserved kind (R107, R190). -/

namespace Sys2Proof.Machine

open Sys2Proof

/-- INVALID is the one operation without a next state (R107, R190). -/
theorem exec_next_iff (i : Instr) (s : State) : (∃ t, exec i s = .next t) ↔ ∀ a b, i ≠ .invalid a b := by
  refine ⟨?_, exec_next i s⟩
  rintro ⟨t, h⟩ a b rfl
  cases h

/-- A transaction is reserved exactly when it decodes to INVALID, whatever the parameters (R81, R107). -/
theorem reserved_transaction_eq_false_iff (c : Config) (w : BitVec 10) (x : Nibble) (o : SaveOutcome) :
    (Request.transaction w x o).reserved = false ↔ ∀ a b, decode c (.transaction w) ≠ .invalid a b := by
  have hkind : (∃ a b, decode c (.transaction w) = .invalid a b) ↔ kindField w = 3 := decodeTransaction_invalid_iff c w
  rw [Request.reserved, beq_eq_false_iff_ne, Ne, ← hkind]
  simp only [not_exists]

/-- A request completes exactly when it is not of the reserved kind: a power-on always does, and so does a bare NVSTEP,
since no latch content decodes to INVALID (R107, R190). -/
theorem serve_next_iff (r : Request) (s : State) : (∃ t, serve r s = .next t) ↔ r.reserved = false := by
  cases r with
  | transaction w x o => exact (exec_next_iff _ _).trans (reserved_transaction_eq_false_iff s.cfg w x o).symm
  | powerOn f => exact iff_of_true ⟨powerOn f s, rfl⟩ rfl
  | nvstep o => exact iff_of_true (exec_next _ _ (decodeMode_ne_invalid s.nv.mode)) rfl

/-- Settles O9: an empty list waits, and otherwise the oldest request decides. -/
theorem stepCompletesUnlessReservedKind : Obligations.StepCompletesUnlessReservedKind := by
  intro s
  cases hrequests : s.requests with
  | nil => exact iff_of_true ⟨s, stepWaitsWithoutRequest s hrequests⟩ fun _ hnone => nomatch hnone
  | cons r rest =>
    calc StepsOn s ↔ ∃ t, serve r (s.setRequests rest) = .next t := by
          rw [StepsOn, step_of_requests_cons hrequests]
      _ ↔ r.reserved = false := serve_next_iff r _
      _ ↔ ∀ q, (r :: rest).head? = some q → q.reserved = false := by simp

end Sys2Proof.Machine
